-- ==== Sys2Proof/Word.lean ====
section
/-! DEFINITION. The word and byte types of CC20 (spec 00 R10, R11) and the index types of its register files. -/

namespace Sys2Proof

/-- A 32-bit word; bit 0 is the least significant (00 R10, R11). -/
abbrev Word := BitVec 32

/-- A byte of a key, a nonce or a keystream (00 R13). -/
abbrev Byte := BitVec 8

/-- A byte offset into the 4 KiB register window (20 R50). -/
abbrev Offset := BitVec 12

/-- The index of a word of X or ST, or of a lane vector of V or VO: 0..15, every value legal (30 R83). -/
abbrev Index := Fin 16

/-- A lane of the 4-lane generator (10 R29). -/
abbrev Lane := Fin 4

end Sys2Proof
end

