-- ==== Sys2Proof/Config.lean ====
section
/-! DEFINITION. What a build of CC20 fixes (spec 00 R8 to R10). -/

namespace Sys2Proof.Config

/-- DESIGN CHOICE, unsafe (log entry 1): the value of the build parameter `HAS_LANE4` in the ONE reset state the
host's interface asks for. The parameter itself is an argument of the model, `State.hasLane4`: every operation reads
it there, so both builds are modelled (00 R8). -/
def resetHasLane4 : Bool := true

/-- The rounds are 20, executed as 10 double rounds (00 R10; 90 C1). -/
def doubleRounds : Nat := 10

/-- The only legal size of a bus access, in bytes (20 R52). -/
def accessBytes : Nat := 4

end Sys2Proof.Config
end

