-- ==== Sys2Proof/Syntax.lean ====
section
/-! DEFINITION. The twenty commands of the opcode map (spec 30 R85) and the lines of the assembler (30 R89). -/

namespace Sys2Proof

/-- The rotation select, field R: it names one of the four fixed amounts, in the order of the quarter round's
lines; no other amount can be written (30 R84, R86). -/
inductive Rot where
  | r16 | r12 | r8 | r7
  deriving DecidableEq, Repr

/-- One constructor per row of the opcode map (30 R85). `a`, `b`, `c`, `d` are the fields A, B, C, D (30 R83). -/
inductive Instr where
  /-- INIT: build the Cipher State (42 R140). -/
  | init
  /-- XLOAD: copy ST into X (41 R120). -/
  | xload
  /-- ARX xa, xb, xd, #n: one line of the quarter round (40 R102). -/
  | arx (a b d : Index) (r : Rot)
  /-- ROTL xa, #n: rotate one word (40 R104). -/
  | rotl (a : Index) (r : Rot)
  /-- QR xa, xb, xc, xd: the quarter round (40 R106). -/
  | qr (a b c d : Index)
  /-- DROUND: one double round (40 R109). -/
  | dround
  /-- FEEDFWD: add ST back into X (41 R122). -/
  | feedfwd
  /-- SERIAL: move X to KS (41 R124). -/
  | serial
  /-- BLOCK: the block function on ST (41 R126). -/
  | block
  /-- GEN: one keystream block, then CTR + 1 (43 R150). -/
  | gen
  /-- INIT4: build the four original states (44 R161). -/
  | init4
  /-- VLOAD: copy VO into V (44 R163). -/
  | vload
  /-- VARX va, vb, vd, #n: one ARX step on every lane (44 R165). -/
  | varx (a b d : Index) (r : Rot)
  /-- VROTL va, #n: rotate every lane of one lane vector (44 R167). -/
  | vrotl (a : Index) (r : Rot)
  /-- VQR va, vb, vc, vd: the quarter round on every lane (44 R169). -/
  | vqr (a b c d : Index)
  /-- VDROUND: one double round on every lane (44 R171). -/
  | vdround
  /-- VFEEDFWD: add VO back into V (44 R173). -/
  | vfeedfwd
  /-- VGATHER: de-interleave V into KS4 (44 R175). -/
  | vgather
  /-- BLOCK4: the 4-lane block function on VO (44 R177). -/
  | block4
  /-- GEN4: four keystream blocks, then CTR + 4 (44 R180). -/
  | gen4
  deriving DecidableEq, Repr

/-- The 4-lane commands, which exist only when `HAS_LANE4` (30 R85; 44 R160). -/
def Instr.isLane : Instr → Bool
  | .init4 | .vload | .varx _ _ _ _ | .vrotl _ _ | .vqr _ _ _ _ | .vdround | .vfeedfwd | .vgather | .block4
  | .gen4 => true
  | .init | .xload | .arx _ _ _ _ | .rotl _ _ | .qr _ _ _ _ | .dround | .feedfwd | .serial | .block
  | .gen => false

/-- An operand as it is written: `x<n>`, `v<n>` or `#<amount>` (30 R89). -/
inductive AsmOperand where
  | x (n : Nat)
  | v (n : Nat)
  | amount (n : Nat)
  deriving DecidableEq, Repr

/-- A command as it is written: a mnemonic, then its operands (30 R89). -/
structure AsmLine where
  mnemonic : String
  operands : List AsmOperand
  deriving DecidableEq, Repr

end Sys2Proof
end

