-- ==== Sys2Proof/WellFormed.lean ====
section
/-! DEFINITION. Which commands a build has (spec 30 R80; 44 R160) and which assembler operands are legal
(30 R83, R84, R89). Inside `Instr` every field is legal by its type (30 R83: every index 0..15). -/

namespace Sys2Proof

/-- A command is well formed for a build with `HAS_LANE4 = lane4`: a 4-lane command needs the 4-lane generator
(30 R80; 44 R160). -/
def Instr.WellFormed (lane4 : Bool) (i : Instr) : Bool :=
  lane4 || !i.isLane

/-- An operand the assembler accepts: an index 0..15, or one of the amounts 16, 12, 8, 7 (30 R83, R89). -/
def AsmOperand.WellFormed : AsmOperand → Bool
  | .x n => n < 16
  | .v n => n < 16
  | .amount n => n == 16 || n == 12 || n == 8 || n == 7

/-- A line all of whose operands are legal. Whether they fit the mnemonic is the assembler's `assemble`. -/
def AsmLine.WellFormed (l : AsmLine) : Bool :=
  l.operands.all AsmOperand.WellFormed

end Sys2Proof
end

