-- ==== Sys2Proof/Decode.lean ====
section
/-! DEFINITION. The opcode map, the decoder, the encoder and the assembler of CC20 (spec 30). -/

namespace Sys2Proof

/-- ROT: the amount a rotation select names (30 R86). -/
def Rot.amount : Rot → Nat
  | .r16 => 16
  | .r12 => 12
  | .r8 => 8
  | .r7 => 7

/-- The 2-bit code of a rotation select, field R (30 R86). -/
def Rot.code : Rot → BitVec 2
  | .r16 => 0
  | .r12 => 1
  | .r8 => 2
  | .r7 => 3

/-- The rotation select that field R holds; every one of its four values is legal (30 R86). -/
def Rot.ofCode (r : BitVec 2) : Rot :=
  if r = 0 then .r16 else if r = 1 then .r12 else if r = 2 then .r8 else .r7

/-! ### The fields of a command word (30 R81) -/

/-- Field A, bits 23:20. -/
def fieldA (w : Word) : Index := (w.extractLsb' 20 4).toFin

/-- Field B, bits 19:16. -/
def fieldB (w : Word) : Index := (w.extractLsb' 16 4).toFin

/-- Field C, bits 15:12. -/
def fieldC (w : Word) : Index := (w.extractLsb' 12 4).toFin

/-- Field D, bits 11:8. -/
def fieldD (w : Word) : Index := (w.extractLsb' 8 4).toFin

/-- Field R, bits 1:0, through ROT. -/
def fieldR (w : Word) : Rot := Rot.ofCode (w.extractLsb' 0 2)

/-! ### The decoder -/

/-- A row of the opcode map: a word w is this row's command when `w &&& mask = pattern`; `build` reads the fields
the mask leaves free (30 R85). -/
structure Row where
  pattern : Word
  mask    : Word
  build   : Word → Instr

/-- The rows of the scalar commands (30 R85). -/
def scalarRows : List Row :=
  [ ⟨0x01000000, 0xFFFFFFFF, fun _ => .init⟩,
    ⟨0x02000000, 0xFFFFFFFF, fun _ => .xload⟩,
    ⟨0x03000000, 0xFF00F0FC, fun w => .arx (fieldA w) (fieldB w) (fieldD w) (fieldR w)⟩,
    ⟨0x04000000, 0xFF0FFFFC, fun w => .rotl (fieldA w) (fieldR w)⟩,
    ⟨0x05000000, 0xFF0000FF, fun w => .qr (fieldA w) (fieldB w) (fieldC w) (fieldD w)⟩,
    ⟨0x06000000, 0xFFFFFFFF, fun _ => .dround⟩,
    ⟨0x07000000, 0xFFFFFFFF, fun _ => .feedfwd⟩,
    ⟨0x08000000, 0xFFFFFFFF, fun _ => .serial⟩,
    ⟨0x09000000, 0xFFFFFFFF, fun _ => .block⟩,
    ⟨0x0A000000, 0xFFFFFFFF, fun _ => .gen⟩ ]

/-- The rows of the 4-lane commands: OP bit 4 set (30 R85). -/
def laneRows : List Row :=
  [ ⟨0x11000000, 0xFFFFFFFF, fun _ => .init4⟩,
    ⟨0x12000000, 0xFFFFFFFF, fun _ => .vload⟩,
    ⟨0x13000000, 0xFF00F0FC, fun w => .varx (fieldA w) (fieldB w) (fieldD w) (fieldR w)⟩,
    ⟨0x14000000, 0xFF0FFFFC, fun w => .vrotl (fieldA w) (fieldR w)⟩,
    ⟨0x15000000, 0xFF0000FF, fun w => .vqr (fieldA w) (fieldB w) (fieldC w) (fieldD w)⟩,
    ⟨0x16000000, 0xFFFFFFFF, fun _ => .vdround⟩,
    ⟨0x17000000, 0xFFFFFFFF, fun _ => .vfeedfwd⟩,
    ⟨0x18000000, 0xFFFFFFFF, fun _ => .vgather⟩,
    ⟨0x19000000, 0xFFFFFFFF, fun _ => .block4⟩,
    ⟨0x1A000000, 0xFFFFFFFF, fun _ => .gen4⟩ ]

/-- The opcode map (30 R85). -/
def opcodeMap : List Row := scalarRows ++ laneRows

/-- Whether a word is a row's command (30 R80). -/
def rowAccepts (w : Word) (row : Row) : Bool := w &&& row.mask == row.pattern

/-- The command a word stands for; `none` when no row matches, that is an illegal word (30 R80, R88). Whether the
build has a 4-lane command is not decoding: it is checked after (30 R80). -/
def decode (w : Word) : Option Instr :=
  (opcodeMap.find? (rowAccepts w)).map (fun row => row.build w)

/-! ### The encoder (30 R87) -/

/-- `enc(OP, a, b, cc, d, r)`, the fields of 30 R81 put together (30 R87). -/
def enc (op : BitVec 8) (a b c d : Index) (r : BitVec 2) : Word :=
  op.setWidth 32 <<< 24 ||| BitVec.ofNat 32 a.val <<< 20 ||| BitVec.ofNat 32 b.val <<< 16
    ||| BitVec.ofNat 32 c.val <<< 12 ||| BitVec.ofNat 32 d.val <<< 8 ||| r.setWidth 32

/-- The opcode of a command, field OP (30 R85). -/
def Instr.opcode : Instr → BitVec 8
  | .init => 0x01
  | .xload => 0x02
  | .arx _ _ _ _ => 0x03
  | .rotl _ _ => 0x04
  | .qr _ _ _ _ => 0x05
  | .dround => 0x06
  | .feedfwd => 0x07
  | .serial => 0x08
  | .block => 0x09
  | .gen => 0x0A
  | .init4 => 0x11
  | .vload => 0x12
  | .varx _ _ _ _ => 0x13
  | .vrotl _ _ => 0x14
  | .vqr _ _ _ _ => 0x15
  | .vdround => 0x16
  | .vfeedfwd => 0x17
  | .vgather => 0x18
  | .block4 => 0x19
  | .gen4 => 0x1A

/-- The word of a command; fields it does not use are 0 (30 R87). -/
def encode (i : Instr) : Word :=
  match i with
  | .arx a b d r | .varx a b d r => enc i.opcode a b 0 d r.code
  | .rotl a r | .vrotl a r => enc i.opcode a 0 0 0 r.code
  | .qr a b c d | .vqr a b c d => enc i.opcode a b c d 0
  | .init | .xload | .dround | .feedfwd | .serial | .block | .gen | .init4 | .vload | .vdround | .vfeedfwd
  | .vgather | .block4 | .gen4 => enc i.opcode 0 0 0 0 0

/-- The command the decoder reads from the opcode table's numbering of a word: bit 0 is the least significant bit of
the one 32-bit word a command is (30 R82). -/
def decodeTableWord (nbits w : Nat) : Option Instr :=
  if nbits ≤ 32 then decode (BitVec.ofNat 32 (w % 2 ^ nbits)) else none

/-! ### The assembler (30 R89) -/

/-- The mnemonic of a command (30 R85, R89). -/
def Instr.mnemonic : Instr → String
  | .init => "INIT"
  | .xload => "XLOAD"
  | .arx _ _ _ _ => "ARX"
  | .rotl _ _ => "ROTL"
  | .qr _ _ _ _ => "QR"
  | .dround => "DROUND"
  | .feedfwd => "FEEDFWD"
  | .serial => "SERIAL"
  | .block => "BLOCK"
  | .gen => "GEN"
  | .init4 => "INIT4"
  | .vload => "VLOAD"
  | .varx _ _ _ _ => "VARX"
  | .vrotl _ _ => "VROTL"
  | .vqr _ _ _ _ => "VQR"
  | .vdround => "VDROUND"
  | .vfeedfwd => "VFEEDFWD"
  | .vgather => "VGATHER"
  | .block4 => "BLOCK4"
  | .gen4 => "GEN4"

/-- The R with `ROT(R) = amount`; any other amount is refused (30 R89). -/
def Rot.ofAmount (n : Nat) : Option Rot :=
  if n = 16 then some .r16 else if n = 12 then some .r12 else if n = 8 then some .r8
  else if n = 7 then some .r7 else none

/-- The index a decimal 0..15 names; any other number is refused (30 R89). -/
def indexOf (n : Nat) : Option Index :=
  if h : n < 16 then some ⟨n, h⟩ else none

/-- The commands without operands (30 R89). -/
def plainCommands : List Instr :=
  [.init, .xload, .dround, .feedfwd, .serial, .block, .gen, .init4, .vload, .vdround, .vfeedfwd, .vgather, .block4,
    .gen4]

/-- The assembler: the command a line is, or `none` where it is none of the forms of 30 R89. -/
def assemble (l : AsmLine) : Option Instr :=
  match l.operands with
  | [] => plainCommands.find? (fun i => i.mnemonic == l.mnemonic)
  | [.x a, .amount n] =>
    if l.mnemonic = "ROTL" then do return .rotl (← indexOf a) (← Rot.ofAmount n) else none
  | [.v a, .amount n] =>
    if l.mnemonic = "VROTL" then do return .vrotl (← indexOf a) (← Rot.ofAmount n) else none
  | [.x a, .x b, .x d, .amount n] =>
    if l.mnemonic = "ARX" then do return .arx (← indexOf a) (← indexOf b) (← indexOf d) (← Rot.ofAmount n)
    else none
  | [.v a, .v b, .v d, .amount n] =>
    if l.mnemonic = "VARX" then do return .varx (← indexOf a) (← indexOf b) (← indexOf d) (← Rot.ofAmount n)
    else none
  | [.x a, .x b, .x c, .x d] =>
    if l.mnemonic = "QR" then do return .qr (← indexOf a) (← indexOf b) (← indexOf c) (← indexOf d) else none
  | [.v a, .v b, .v c, .v d] =>
    if l.mnemonic = "VQR" then do return .vqr (← indexOf a) (← indexOf b) (← indexOf c) (← indexOf d) else none
  | _ => none

/-- A command as the assembler writes it (30 R89). -/
def disassemble (i : Instr) : AsmLine :=
  match i with
  | .arx a b d r => ⟨i.mnemonic, [.x a.val, .x b.val, .x d.val, .amount r.amount]⟩
  | .varx a b d r => ⟨i.mnemonic, [.v a.val, .v b.val, .v d.val, .amount r.amount]⟩
  | .rotl a r => ⟨i.mnemonic, [.x a.val, .amount r.amount]⟩
  | .vrotl a r => ⟨i.mnemonic, [.v a.val, .amount r.amount]⟩
  | .qr a b c d => ⟨i.mnemonic, [.x a.val, .x b.val, .x c.val, .x d.val]⟩
  | .vqr a b c d => ⟨i.mnemonic, [.v a.val, .v b.val, .v c.val, .v d.val]⟩
  | .init | .xload | .dround | .feedfwd | .serial | .block | .gen | .init4 | .vload | .vdround | .vfeedfwd
  | .vgather | .block4 | .gen4 => ⟨i.mnemonic, []⟩

end Sys2Proof
end

