-- ==== Sys2Proof/Machine/State.lean ====
section
/-! DEFINITION. The state of CC20 (spec 10), the host's side of the bus (20 R63; 70 R250), and the state after reset
(10 R41). -/

namespace Sys2Proof.Machine

/-- A word of a data register file with its valid bit: `none` is valid bit 0, a word that holds no value; `some v` is
valid bit 1 and the value v (10 R22). The valid bit is the spec's own state (log entry 2). -/
abbrev DataWord := Option Word

/-- The words of the data register files, by name (10 R21). -/
inductive Reg where
  | k (j : Fin 8)
  | n (j : Fin 3)
  | ctr
  | st (i : Index)
  | x (i : Index)
  | ks (j : Index)
  | v (w : Index) (l : Lane)
  | vo (w : Index) (l : Lane)
  | ks4 (l : Lane) (j : Index)
  deriving DecidableEq, Repr

/-- The registers of the bus map (20 R51). CMD is a port, not storage (10 R38). -/
inductive BusReg where
  | cap
  | status
  | cmd
  | finfo
  | data (r : Reg)
  deriving DecidableEq, Repr

/-- The causes a fault can record; codes 0 and 5..15 are never recorded, so they have no constructor
(60 R222; 93 U7). -/
inductive Cause where
  | illegalCmd
  | uninitOperand
  | busError
  | uninitRead
  deriving DecidableEq, Repr

/-- One thing the host does to the core: a bus access of `size` bytes at an offset of the window (20 R50, R52), or
the reset the platform asserts between two accesses (70 R250). -/
inductive HostAction where
  | read (off : Offset) (size : Nat)
  | write (off : Offset) (size : Nat) (value : Word)
  | reset
  deriving DecidableEq, Repr

/-- What a bus read gives the host: the register's word, or an error response and no data (20 R55; 60 R229). How the
platform delivers the error response is its own (log entry 7). -/
inductive Response where
  | data (value : Word)
  | busErrorResponse
  deriving DecidableEq, Repr

/-- Why a step would stop. It has no constructor: a CC20 fault never stops the core, it is recorded in STATUS and
FINFO and the core goes on (60 R221). Nothing raises it, which is safe. -/
inductive Fault where
  deriving DecidableEq, Repr

/-- Why something has no meaning here. `step` gives none of them. -/
inductive Refusal where
  /-- Raised by an arm of `exec` for a command that has no meaning yet, by the table's mnemonic. Safe. No arm is. -/
  | notModelled (mnemonic : String)
  /-- Raised by the host procedure `transform` when `out` and `in` partly overlap, which the source calls undefined
  (46 R208; 93 U1). Safe. The core never raises it. -/
  | partialOverlap
  /-- Raised by the host procedure `transform` for a buffer that does not lie in the host's memory, a contract
  violation that the core cannot see (46 R210). Safe. The core never raises it. -/
  | bufferOutside
  /-- Raised by a host procedure whose bus read got an error response: the host has no data to go on with (60 R229).
  Safe. The core never raises it. -/
  | noData
  deriving DecidableEq, Repr

/-- The state of CC20: the data register files with their valid bits and the control registers (10 R20), and the
host's side of the bus as plain data (`pending`, `responses`: the model's own, log entry 3). -/
structure State where
  /-- CAP.LANE4, the build parameter HAS_LANE4: constant (10 R35; 00 R8). -/
  hasLane4  : Bool
  /-- K, the key (10 R23). -/
  k         : Vector DataWord 8
  /-- N, the nonce (10 R24). -/
  n         : Vector DataWord 3
  /-- CTR, the block counter (10 R25). -/
  ctr       : DataWord
  /-- ST, the Cipher State (10 R26). -/
  st        : Vector DataWord 16
  /-- X, the working state (10 R27). -/
  x         : Vector DataWord 16
  /-- KS, the Keystream Block (10 R28). -/
  ks        : Vector DataWord 16
  /-- V, the working lane vectors: V[w] is the 4-tuple of lanes of state-word w (10 R29). -/
  v         : Vector (Vector DataWord 4) 16
  /-- VO, the original lane vectors (10 R30). -/
  vo        : Vector (Vector DataWord 4) 16
  /-- KS4, the four keystream blocks: KS4[l] is block l (10 R31). -/
  ks4       : Vector (Vector DataWord 16) 4
  /-- STATUS: FAULT and CAUSE; `none` is FAULT = 0 and CAUSE = 0 (10 R36). -/
  status    : Option Cause
  /-- FINFO (10 R37). -/
  finfo     : Word
  /-- What the host still does, in its order (20 R63). The model's own field. -/
  pending   : List HostAction
  /-- What the host's reads got, oldest first (20 R55). The model's own field. -/
  responses : List Response
  deriving DecidableEq, Repr

/-- The core right after reset, for either build: every valid bit clear, STATUS = 0, FINFO = 0, CAP constant
(10 R41; 70 R250). -/
def State.resetWith (hasLane4 : Bool) : State where
  hasLane4  := hasLane4
  k         := Vector.replicate 8 none
  n         := Vector.replicate 3 none
  ctr       := none
  st        := Vector.replicate 16 none
  x         := Vector.replicate 16 none
  ks        := Vector.replicate 16 none
  v         := Vector.replicate 16 (Vector.replicate 4 none)
  vo        := Vector.replicate 16 (Vector.replicate 4 none)
  ks4       := Vector.replicate 4 (Vector.replicate 16 none)
  status    := none
  finfo     := 0
  pending   := []
  responses := []

/-- The machine right after reset (10 R41), of the build `Config.resetHasLane4` names (log entry 1). -/
def State.reset : State := State.resetWith Config.resetHasLane4

end Sys2Proof.Machine
end

