-- ==== Sys2Proof/Machine/Flags.lean ====
section
/-! DEFINITION. The words of the control registers. CC20 has no condition codes and its arithmetic sets no flag
(spec 10 R34): its only flag is STATUS.FAULT (10 R36). -/

namespace Sys2Proof.Machine

/-- CAUSE, the 4-bit code of a fault (10 R36; 60 R222). -/
def Cause.code : Cause → BitVec 4
  | .illegalCmd => 1
  | .uninitOperand => 2
  | .busError => 3
  | .uninitRead => 4

/-- STATUS.FAULT: a fault has been recorded since reset (10 R36). -/
def State.faulted (s : State) : Bool := s.status.isSome

/-- STATUS as the bus reads it: FAULT in bit 0, CAUSE in bits 7:4, every other bit hardwired 0 (10 R36). -/
def State.statusWord (s : State) : Word :=
  match s.status with
  | none => 0
  | some c => c.code.setWidth 32 <<< 4 ||| 1

/-- CAP as the bus reads it: LANE4 in bit 0, every other bit hardwired 0 (10 R35). -/
def State.capWord (s : State) : Word := if s.hasLane4 then 1 else 0

/-- FINFO of a bus access that faults: bit 31 = 1 for a write and 0 for a read, the offset in bits 11:0, bits 30:12
zero (60 R222). -/
def accessInfo (isWrite : Bool) (off : Offset) : Word :=
  (if isWrite then 0x80000000 else 0) ||| off.setWidth 32

end Sys2Proof.Machine
end

