-- ==== Sys2Proof/Machine/Ops.lean ====
section
/-! DEFINITION. The named operations: word arithmetic and byte order (spec 00 §4), register files and their valid
bits (10 R22), recording a fault (60 R223) and the checks of a command (30 R80). -/

namespace Sys2Proof.Machine

/-! ### Word arithmetic and byte order -/

/-- `rotl32(v, n)` for 1 ≤ n ≤ 31 (00 R12). -/
def rotl32 (v : Word) (n : Nat) : Word := v <<< n ||| v >>> (32 - n)

/-- `byte_k(w) = w[8k+7 : 8k]` (00 R13). -/
def byteOf (k : Nat) (w : Word) : Byte := w.extractLsb' (8 * k) 8

/-- `le32(b0, b1, b2, b3)` (00 R13). -/
def le32 (b0 b1 b2 b3 : Byte) : Word :=
  b0.setWidth 32 ||| b1.setWidth 32 <<< 8 ||| b2.setWidth 32 <<< 16 ||| b3.setWidth 32 <<< 24

/-- The serialisation of a word sequence: byte 4j+k is `byte_k(w[j])` (00 R13). -/
def serialise (ws : List Word) : List Byte :=
  ws.flatMap (fun w => [byteOf 0 w, byteOf 1 w, byteOf 2 w, byteOf 3 w])

/-- The three operations of 00 R12 on one kind of word. The quarter round is written once over them, for plain
words, for data words with valid bits and for lane vectors (44, the source's "generic over the underlying word/lane
type"). -/
structure WordOps (α : Type) where
  add  : α → α → α
  xor  : α → α → α
  rotl : α → Nat → α

/-- The operations on 32-bit words: the sum wraps (00 R12). -/
def wordOps : WordOps Word where
  add a b := a + b
  xor a b := a ^^^ b
  rotl a n := rotl32 a n

/-- The sum of two data words. Of a word that holds no value there is no sum (10 R22). -/
def DataWord.add (a b : DataWord) : DataWord :=
  match a, b with
  | some u, some v => some (u + v)
  | _, _ => none

/-- The exclusive or of two data words (00 R12; 10 R22). -/
def DataWord.xor (a b : DataWord) : DataWord :=
  match a, b with
  | some u, some v => some (u ^^^ v)
  | _, _ => none

/-- The rotation of a data word (00 R12; 10 R22). -/
def DataWord.rotl (a : DataWord) (n : Nat) : DataWord :=
  a.map (fun u => rotl32 u n)

/-- The operations on data words. A command runs only when its whole read set is valid, so no command ever stores a
word without a value (30 R80; 60 R226). -/
def dataOps : WordOps DataWord where
  add := DataWord.add
  xor := DataWord.xor
  rotl := DataWord.rotl

/-- The vector whose entry i is `f i`. -/
def tab {α : Type} {n : Nat} (f : Fin n → α) : Vector α n :=
  ⟨(List.ofFn f).toArray, by simp⟩

/-- On a lane vector each of the operations applies lane by lane (00 R12; 44 R160). -/
def laneOps {α : Type} (o : WordOps α) : WordOps (Vector α 4) where
  add u v := tab fun l => o.add u[l] v[l]
  xor u v := tab fun l => o.xor u[l] v[l]
  rotl u n := tab fun l => o.rotl u[l] n

/-! ### Data registers -/

/-- The data word a register holds (00 R14). -/
def State.rd (s : State) : Reg → DataWord
  | .k j => s.k[j]
  | .n j => s.n[j]
  | .ctr => s.ctr
  | .st i => s.st[i]
  | .x i => s.x[i]
  | .ks j => s.ks[j]
  | .v w l => s.v[w][l]
  | .vo w l => s.vo[w][l]
  | .ks4 l j => s.ks4[l][j]

/-- `F[i] <- v`: the word takes the value v and its valid bit is set (00 R14; 10 R22). -/
def State.wr (s : State) (r : Reg) (v : Word) : State :=
  match r with
  | .k j => { s with k := s.k.set j (some v) }
  | .n j => { s with n := s.n.set j (some v) }
  | .ctr => { s with ctr := some v }
  | .st i => { s with st := s.st.set i (some v) }
  | .x i => { s with x := s.x.set i (some v) }
  | .ks j => { s with ks := s.ks.set j (some v) }
  | .v w l => { s with v := s.v.set w (s.v[w].set l (some v)) }
  | .vo w l => { s with vo := s.vo.set w (s.vo[w].set l (some v)) }
  | .ks4 l j => { s with ks4 := s.ks4.set l (s.ks4[l].set j (some v)) }

/-- The valid bit of a register (10 R22). -/
def State.valid (s : State) (r : Reg) : Bool := (s.rd r).isSome

/-! ### Taking a fault -/

/-- `raise E(info)`: the first fault since reset is recorded in STATUS and FINFO, a later one is not, and nothing else
changes (60 R221, R223, R234). There is no return from a fault but reset (60 R234). -/
def State.raise (s : State) (e : Cause) (info : Word) : State :=
  if s.faulted then s else { s with status := some e, finfo := info }

/-- Reset: every piece of the core's state takes its reset value, CAP keeps its constant value (10 R41; 70 R250). The
host's own side of the bus goes on (log entry 9). -/
def State.resetCore (s : State) : State :=
  { State.resetWith s.hasLane4 with pending := s.pending, responses := s.responses }

/-! ### The checks of a command -/

/-- A command i, presented to CMD, with its read set and its effect, in the order of 30 R80 and 60 R232: discarded
while FAULT = 1; ILLEGAL_CMD for a 4-lane command of a build without the generator; UNINIT_OPERAND when a word of the
read set has valid bit 0; else the effect. FINFO is the command word, which is `encode i` (log entry 11). -/
def issue (i : Instr) (reads : List Reg) (effect : State → State) (s : State) : Host.Outcome State Fault Refusal :=
  if s.faulted then .next s
  else if i.WellFormed s.hasLane4 = false then .next (s.raise .illegalCmd (encode i))
  else if reads.all s.valid then .next (effect s)
  else .next (s.raise .uninitOperand (encode i))

end Sys2Proof.Machine
end

