-- ==== Sys2Proof/Machine/ChaCha.lean ====
section
/-! DEFINITION. The functions the rules name, over any kind of word: the ARX step, the quarter round, the double round
and the permutation (spec 40), the feed-forward and the block function (41 R128), and the state initializer
(42 R141). -/

namespace Sys2Proof.Machine

variable {α : Type}

/-- One ARX step, line by line: `X[a] <- X[a] + X[b]`, then `X[d] <- rotl(X[d] xor X[a], n)` on what the first line
left, so that equal indices give what the sequence gives (40 R101, R102). -/
def arxStep (o : WordOps α) (x : Vector α 16) (a b d : Index) (n : Nat) : Vector α 16 :=
  let y := x.set a (o.add x[a] x[b])
  y.set d (o.rotl (o.xor y[d] y[a]) n)

/-- `X[a] <- rotl(X[a], n)` (40 R104). -/
def rotlStep (o : WordOps α) (x : Vector α 16) (a : Index) (n : Nat) : Vector α 16 :=
  x.set a (o.rotl x[a] n)

/-- QRfn: the four lines of the quarter round (40 R106). -/
def quarterRound (o : WordOps α) (x : Vector α 16) (a b c d : Index) : Vector α 16 :=
  let x1 := arxStep o x a b d 16
  let x2 := arxStep o x1 c d b 12
  let x3 := arxStep o x2 a b d 8
  arxStep o x3 c d b 7

/-- The column quadruples, in order (40 R108). -/
def columns : List (Index × Index × Index × Index) :=
  [(0, 4, 8, 12), (1, 5, 9, 13), (2, 6, 10, 14), (3, 7, 11, 15)]

/-- The diagonal quadruples, in order (40 R108). -/
def diagonals : List (Index × Index × Index × Index) :=
  [(0, 5, 10, 15), (1, 6, 11, 12), (2, 7, 8, 13), (3, 4, 9, 14)]

/-- A pass: the quarter round on each quadruple of a list, in order (40 R109). -/
def pass (o : WordOps α) (x : Vector α 16) (qs : List (Index × Index × Index × Index)) : Vector α 16 :=
  qs.foldl (fun y q => quarterRound o y q.1 q.2.1 q.2.2.1 q.2.2.2) x

/-- DRfn: the column round, then the diagonal round (40 R109). -/
def doubleRound (o : WordOps α) (x : Vector α 16) : Vector α 16 :=
  pass o (pass o x columns) diagonals

/-- `n` double rounds. -/
def doubleRounds (o : WordOps α) : Nat → Vector α 16 → Vector α 16
  | 0, x => x
  | n + 1, x => doubleRounds o n (doubleRound o x)

/-- PERMfn: ten double rounds, the 20 rounds (40 R110; 90 C1). -/
def permutation (o : WordOps α) (x : Vector α 16) : Vector α 16 :=
  doubleRounds o Config.doubleRounds x

/-- FFfn(s, x): `x[i] + s[i]` for every i (41 R122, R128). -/
def feedForward (o : WordOps α) (s x : Vector α 16) : Vector α 16 :=
  tab fun i => o.add x[i] s[i]

/-- BlockWords(s) = FFfn(s, PERMfn(s)) (41 R128). -/
def blockWords (o : WordOps α) (s : Vector α 16) : Vector α 16 :=
  feedForward o s (permutation o s)

/-- BlockFn(s): the 64 bytes of the block function (41 R128). -/
def blockBytes (s : Vector Word 16) : List Byte :=
  serialise (blockWords wordOps s).toList

/-- CONST: "expand 32-byte k" as four little-endian words, a fixed table and not state (10 R39; 42 R142). -/
def cipherConst : Vector Word 4 := #v[0x61707865, 0x3320646E, 0x79622D32, 0x6B206574]

/-- InitFn(K, N, c): constants, key, counter, nonce (42 R140, R141). `lit` makes a word of the kind at hand. -/
def initFn (lit : Word → α) (k : Vector α 8) (n : Vector α 3) (c : α) : Vector α 16 :=
  #v[lit cipherConst[0], lit cipherConst[1], lit cipherConst[2], lit cipherConst[3],
     k[0], k[1], k[2], k[3], k[4], k[5], k[6], k[7],
     c, n[0], n[1], n[2]]

/-- The lane vectors of INIT4: lane l of state-word w is word w of InitFn for counter c + l (44 R161). -/
def initLanes (k : Vector DataWord 8) (n : Vector DataWord 3) (c : DataWord) : Vector (Vector DataWord 4) 16 :=
  tab fun w => tab fun l => (initFn some k n (DataWord.add c (some (BitVec.ofNat 32 l.val))))[w]

/-- De-interleaving: word w of block l is lane l of lane vector w (44 R175). -/
def gather (v : Vector (Vector α 4) 16) : Vector (Vector α 16) 4 :=
  tab fun l => tab fun w => v[w][l]

end Sys2Proof.Machine
end

