-- ==== Sys2Proof/Machine/Operands.lean ====
section
/-! DEFINITION. The operand forms: the words a register file gives a read set (spec 30 R80, R83) and the bus map from
offsets to registers (20 R51, R54). -/

namespace Sys2Proof.Machine

/-! ### Read sets -/

/-- K[0..7], N[0..2], CTR: what INIT, GEN, INIT4 and GEN4 read (42 R140). -/
def keyWords : List Reg :=
  (List.finRange 8).map Reg.k ++ (List.finRange 3).map Reg.n ++ [.ctr]

/-- ST[0..15]. -/
def stWords : List Reg := (List.finRange 16).map Reg.st

/-- X[0..15]. -/
def xWords : List Reg := (List.finRange 16).map Reg.x

/-- V[w][0..3], one lane vector (30 R83; 44 R165). -/
def laneWords (w : Index) : List Reg := (List.finRange 4).map (Reg.v w)

/-- V[0..15][0..3]. -/
def vWords : List Reg := (List.finRange 16).flatMap laneWords

/-- VO[0..15][0..3]. -/
def voWords : List Reg := (List.finRange 16).flatMap (fun w => (List.finRange 4).map (Reg.vo w))

/-! ### The register map -/

/-- The byte offset of a register (20 R51). -/
def BusReg.offset : BusReg → Offset
  | .cap => 0x000
  | .status => 0x004
  | .cmd => 0x008
  | .finfo => 0x00C
  | .data (.k j) => BitVec.ofNat 12 (0x020 + 4 * j.val)
  | .data (.n j) => BitVec.ofNat 12 (0x040 + 4 * j.val)
  | .data .ctr => 0x04C
  | .data (.st i) => BitVec.ofNat 12 (0x080 + 4 * i.val)
  | .data (.x i) => BitVec.ofNat 12 (0x0C0 + 4 * i.val)
  | .data (.ks j) => BitVec.ofNat 12 (0x100 + 4 * j.val)
  | .data (.v w l) => BitVec.ofNat 12 (0x200 + 16 * w.val + 4 * l.val)
  | .data (.vo w l) => BitVec.ofNat 12 (0x300 + 16 * w.val + 4 * l.val)
  | .data (.ks4 l j) => BitVec.ofNat 12 (0x400 + 64 * l.val + 4 * j.val)

/-- The 4-lane files, present only when `HAS_LANE4` (20 R51; 10 R29 to R31). -/
def Reg.isLane : Reg → Bool
  | .v _ _ | .vo _ _ | .ks4 _ _ => true
  | .k _ | .n _ | .ctr | .st _ | .x _ | .ks _ => false

/-- The registers of the scalar part, which every build maps: the register at word `q = off / 4` (20 R51). -/
def scalarRegAt (q : Nat) : Option BusReg :=
  if q = 0 then some .cap
  else if q = 1 then some .status
  else if q = 2 then some .cmd
  else if q = 3 then some .finfo
  else if h : 8 ≤ q ∧ q < 16 then some (.data (.k ⟨q - 8, by omega⟩))
  else if h : 16 ≤ q ∧ q < 19 then some (.data (.n ⟨q - 16, by omega⟩))
  else if q = 19 then some (.data .ctr)
  else if h : 32 ≤ q ∧ q < 48 then some (.data (.st ⟨q - 32, by omega⟩))
  else if h : 48 ≤ q ∧ q < 64 then some (.data (.x ⟨q - 48, by omega⟩))
  else if h : 64 ≤ q ∧ q < 80 then some (.data (.ks ⟨q - 64, by omega⟩))
  else none

/-- The registers of the 4-lane part at word `q = off / 4`: 16 bytes a lane vector, 64 bytes a block (20 R51). -/
def laneRegAt (q : Nat) : Option BusReg :=
  if h : 128 ≤ q ∧ q < 192 then some (.data (.v ⟨(q - 128) / 4, by omega⟩ ⟨(q - 128) % 4, by omega⟩))
  else if h : 192 ≤ q ∧ q < 256 then some (.data (.vo ⟨(q - 192) / 4, by omega⟩ ⟨(q - 192) % 4, by omega⟩))
  else if h : 256 ≤ q ∧ q < 320 then some (.data (.ks4 ⟨(q - 256) / 16, by omega⟩ ⟨(q - 256) % 16, by omega⟩))
  else none

/-- The register mapped at an aligned offset, `none` where none is: reserved, or of the 4-lane part in a build without
it (20 R51). -/
def regAt (hasLane4 : Bool) (off : Offset) : Option BusReg :=
  let q := off.toNat / 4
  if q < 128 then scalarRegAt q else if hasLane4 then laneRegAt q else none

/-- The registers the bus may only read (20 R51, R54). -/
def BusReg.readOnly : BusReg → Bool
  | .cap | .status | .finfo | .data (.ks _) | .data (.ks4 _ _) => true
  | .cmd | .data (.k _) | .data (.n _) | .data .ctr | .data (.st _) | .data (.x _) | .data (.v _ _)
  | .data (.vo _ _) => false

end Sys2Proof.Machine
end

