-- ==== Sys2Proof/Machine/BlockCore.lean ====
section
/-! DEFINITION. The block core: XLOAD, FEEDFWD, SERIAL, BLOCK (spec 41). -/

namespace Sys2Proof.Machine

/-- XLOAD (41 R120). -/
def execXload (s : State) : Host.Outcome State Fault Refusal :=
  issue .xload stWords (fun s => { s with x := s.st }) s

/-- FEEDFWD (41 R122): the value added is what ST holds now. -/
def execFeedfwd (s : State) : Host.Outcome State Fault Refusal :=
  issue .feedfwd (xWords ++ stWords) (fun s => { s with x := feedForward dataOps s.st s.x }) s

/-- SERIAL (41 R124). -/
def execSerial (s : State) : Host.Outcome State Fault Refusal :=
  issue .serial xWords (fun s => { s with ks := s.x }) s

/-- What BLOCK does to X and KS: the block function of ST, left in both (41 R126). -/
def blockEffect (s : State) : State :=
  { s with x := blockWords dataOps s.st, ks := blockWords dataOps s.st }

/-- BLOCK (41 R126): X is written before it is read, so only ST is in the read set. -/
def execBlock (s : State) : Host.Outcome State Fault Refusal :=
  issue .block stWords blockEffect s

end Sys2Proof.Machine
end

