-- ==== Sys2Proof/Machine/Datapath.lean ====
section
/-! DEFINITION. The quarter-round and word-rotation datapath on X: ARX, ROTL, QR, DROUND (spec 40). -/

namespace Sys2Proof.Machine

/-- ARX xa, xb, xd, #n (40 R102). -/
def execArx (a b d : Index) (r : Rot) (s : State) : Host.Outcome State Fault Refusal :=
  issue (.arx a b d r) [.x a, .x b, .x d]
    (fun s => { s with x := arxStep dataOps s.x a b d r.amount }) s

/-- ROTL xa, #n (40 R104). -/
def execRotl (a : Index) (r : Rot) (s : State) : Host.Outcome State Fault Refusal :=
  issue (.rotl a r) [.x a]
    (fun s => { s with x := rotlStep dataOps s.x a r.amount }) s

/-- QR xa, xb, xc, xd (40 R106). -/
def execQr (a b c d : Index) (s : State) : Host.Outcome State Fault Refusal :=
  issue (.qr a b c d) [.x a, .x b, .x c, .x d]
    (fun s => { s with x := quarterRound dataOps s.x a b c d }) s

/-- DROUND (40 R109). -/
def execDround (s : State) : Host.Outcome State Fault Refusal :=
  issue .dround xWords
    (fun s => { s with x := doubleRound dataOps s.x }) s

end Sys2Proof.Machine
end

