-- ==== Sys2Proof/Machine/StateInit.lean ====
section
/-! DEFINITION. The state initializer: INIT (spec 42). -/

namespace Sys2Proof.Machine

/-- What INIT does to ST (42 R140). -/
def initEffect (s : State) : State := { s with st := initFn some s.k s.n s.ctr }

/-- INIT (42 R140): CTR is only read. -/
def execInit (s : State) : Host.Outcome State Fault Refusal :=
  issue .init keyWords initEffect s

end Sys2Proof.Machine
end

