-- ==== Sys2Proof/Machine/ScalarGen.lean ====
section
/-! DEFINITION. The scalar block generator: GEN (spec 43). -/

namespace Sys2Proof.Machine

/-- CTR advanced by n, modulo 2^32 (10 R25). -/
def advanceCtr (n : Word) (s : State) : State := { s with ctr := DataWord.add s.ctr (some n) }

/-- GEN (43 R150): the state for CTR, its block, then CTR + 1. ST and X are written before they are read. -/
def execGen (s : State) : Host.Outcome State Fault Refusal :=
  issue .gen keyWords (fun s => advanceCtr 1 (blockEffect (initEffect s))) s

end Sys2Proof.Machine
end

