-- ==== Sys2Proof/Machine/Lane4.lean ====
section
/-! DEFINITION. The 4-lane-parallel block generator: INIT4, VLOAD, VARX, VROTL, VQR, VDROUND, VFEEDFWD, VGATHER,
BLOCK4, GEN4 (spec 44). The commands are the scalar functions over lane vectors; lanes never interact (44 R160; log
entry 13). -/

namespace Sys2Proof.Machine

/-- The operations on lane vectors of data words (00 R12). -/
def vecOps : WordOps (Vector DataWord 4) := laneOps dataOps

/-- What INIT4 does to VO (44 R161). -/
def init4Effect (s : State) : State := { s with vo := initLanes s.k s.n s.ctr }

/-- INIT4 (44 R161): CTR is only read. -/
def execInit4 (s : State) : Host.Outcome State Fault Refusal :=
  issue .init4 keyWords init4Effect s

/-- VLOAD (44 R163). -/
def execVload (s : State) : Host.Outcome State Fault Refusal :=
  issue .vload voWords (fun s => { s with v := s.vo }) s

/-- VARX va, vb, vd, #n (44 R165). -/
def execVarx (a b d : Index) (r : Rot) (s : State) : Host.Outcome State Fault Refusal :=
  issue (.varx a b d r) (laneWords a ++ laneWords b ++ laneWords d)
    (fun s => { s with v := arxStep vecOps s.v a b d r.amount }) s

/-- VROTL va, #n (44 R167). -/
def execVrotl (a : Index) (r : Rot) (s : State) : Host.Outcome State Fault Refusal :=
  issue (.vrotl a r) (laneWords a)
    (fun s => { s with v := rotlStep vecOps s.v a r.amount }) s

/-- VQR va, vb, vc, vd (44 R169). -/
def execVqr (a b c d : Index) (s : State) : Host.Outcome State Fault Refusal :=
  issue (.vqr a b c d) (laneWords a ++ laneWords b ++ laneWords c ++ laneWords d)
    (fun s => { s with v := quarterRound vecOps s.v a b c d }) s

/-- VDROUND (44 R171). -/
def execVdround (s : State) : Host.Outcome State Fault Refusal :=
  issue .vdround vWords (fun s => { s with v := doubleRound vecOps s.v }) s

/-- VFEEDFWD (44 R173): the value added is what VO holds now. -/
def execVfeedfwd (s : State) : Host.Outcome State Fault Refusal :=
  issue .vfeedfwd (vWords ++ voWords) (fun s => { s with v := feedForward vecOps s.vo s.v }) s

/-- VGATHER (44 R175). -/
def execVgather (s : State) : Host.Outcome State Fault Refusal :=
  issue .vgather vWords (fun s => { s with ks4 := gather s.v }) s

/-- What BLOCK4 does to V and KS4: the block function of every lane of VO, left in V and gathered (44 R177). -/
def block4Effect (s : State) : State :=
  { s with v := blockWords vecOps s.vo, ks4 := gather (blockWords vecOps s.vo) }

/-- BLOCK4 (44 R177): V is written before it is read, so only VO is in the read set. -/
def execBlock4 (s : State) : Host.Outcome State Fault Refusal :=
  issue .block4 voWords block4Effect s

/-- GEN4 (44 R180): the four states for CTR, their blocks, then CTR + 4. -/
def execGen4 (s : State) : Host.Outcome State Fault Refusal :=
  issue .gen4 keyWords (fun s => advanceCtr 4 (block4Effect (init4Effect s))) s

end Sys2Proof.Machine
end

