-- ==== Sys2Proof/Machine/Dispatch.lean ====
section
/-! DEFINITION. The meaning of every command: one arm per row of the opcode map (spec 30 R85). -/

namespace Sys2Proof.Machine

def exec (i : Instr) (s : State) : Host.Outcome State Fault Refusal :=
  match i with
  | .init => Sys2Proof.Machine.execInit s
  | .xload => Sys2Proof.Machine.execXload s
  | .arx a b d r => Sys2Proof.Machine.execArx a b d r s
  | .rotl a r => Sys2Proof.Machine.execRotl a r s
  | .qr a b c d => Sys2Proof.Machine.execQr a b c d s
  | .dround => Sys2Proof.Machine.execDround s
  | .feedfwd => Sys2Proof.Machine.execFeedfwd s
  | .serial => Sys2Proof.Machine.execSerial s
  | .block => Sys2Proof.Machine.execBlock s
  | .gen => Sys2Proof.Machine.execGen s
  | .init4 => Sys2Proof.Machine.execInit4 s
  | .vload => Sys2Proof.Machine.execVload s
  | .varx a b d r => Sys2Proof.Machine.execVarx a b d r s
  | .vrotl a r => Sys2Proof.Machine.execVrotl a r s
  | .vqr a b c d => Sys2Proof.Machine.execVqr a b c d s
  | .vdround => Sys2Proof.Machine.execVdround s
  | .vfeedfwd => Sys2Proof.Machine.execVfeedfwd s
  | .vgather => Sys2Proof.Machine.execVgather s
  | .block4 => Sys2Proof.Machine.execBlock4 s
  | .gen4 => Sys2Proof.Machine.execGen4 s

end Sys2Proof.Machine
end

