-- ==== Sys2Proof/Machine/Bus.lean ====
section
/-! DEFINITION. The bus: reads, writes and the command port (spec 20 R55, R56; 30 R80), and the host's next action. -/

namespace Sys2Proof.Machine

/-- `Command(c)`: a word presented to CMD (30 R80). While FAULT = 1 it is discarded undecoded (60 R231); a word that
matches no row raises ILLEGAL_CMD (60 R224); a command is executed, with its own checks. -/
def command (c : Word) (s : State) : Host.Outcome State Fault Refusal :=
  if s.faulted then .next s
  else
    match decode c with
    | none => .next (s.raise .illegalCmd c)
    | some i => exec i s

/-- The register an access of `size` bytes at `off` reaches: none for a wrong size, a misaligned offset or an offset
that is not mapped (20 R52, R53, R54). -/
def target (s : State) (off : Offset) (size : Nat) : Option BusReg :=
  if size ≠ Config.accessBytes ∨ off.extractLsb' 0 2 ≠ 0 then none else regAt s.hasLane4 off

/-- `MemRead(off, n)` (20 R55): the state after the read and what the host gets. -/
def memRead (off : Offset) (size : Nat) (s : State) : State × Response :=
  match target s off size with
  | none | some .cmd => (s.raise .busError (accessInfo false off), .busErrorResponse)
  | some .cap => (s, .data s.capWord)
  | some .status => (s, .data s.statusWord)
  | some .finfo => (s, .data s.finfo)
  | some (.data r) =>
    match s.rd r with
    | some w => (s, .data w)
    | none => (s.raise .uninitRead (accessInfo false off), .busErrorResponse)

/-- `MemWrite(off, n, v)` (20 R56): v is stored, or presented as a command. A data write is taken whether or not a
fault is recorded (60 R231). -/
def memWrite (off : Offset) (size : Nat) (v : Word) (s : State) : Host.Outcome State Fault Refusal :=
  match target s off size with
  | some .cmd => command v s
  | some (.data r) =>
    if (BusReg.data r).readOnly then .next (s.raise .busError (accessInfo true off)) else .next (s.wr r v)
  | none | some .cap | some .status | some .finfo => .next (s.raise .busError (accessInfo true off))

/-- One action of the host, whole (20 R58). A read's answer is appended to `responses`; a write has none (log entry
8). -/
def hostAct (a : HostAction) (s : State) : Host.Outcome State Fault Refusal :=
  match a with
  | .read off size =>
    let r := memRead off size s
    .next { r.1 with responses := r.1.responses ++ [r.2] }
  | .write off size v => memWrite off size v s
  | .reset => .next s.resetCore

/-- The host's next action, in its order (20 R63). Between actions the core holds its state (20 R57; 60 R242; log entry
5). -/
def hostTurn (s : State) : Host.Outcome State Fault Refusal :=
  match s.pending with
  | [] => .next s
  | a :: rest => hostAct a { s with pending := rest }

/-- The write of one word to CMD, which is how a command reaches the core (10 R38). -/
def commandWrite (w : Word) : HostAction :=
  .write BusReg.cmd.offset Config.accessBytes w

end Sys2Proof.Machine
end

