-- ==== Sys2Proof/Machine/Step.lean ====
section
/-! DEFINITION. One step of the machine: one action of the host (spec 20 R58, R63). -/

namespace Sys2Proof.Machine

/-- One step: the host's next action, a whole bus access or a reset (20 R58; 70 R250). -/
def step (s : State) : Host.Outcome State Fault Refusal := hostTurn s

/-- s with the host's next action a CMD write of the word (log entry 4). CC20 fetches no instruction (20 R67): a
command is what the host writes to CMD. A word of fewer than 32 bits has zeros above. -/
def State.withFetchWord (s : State) (nbits w : Nat) : State :=
  { s with pending := commandWrite (BitVec.ofNat 32 (w % 2 ^ nbits)) :: s.pending }

end Sys2Proof.Machine
end

