-- ==== Sys2Proof/Machine/HostPaths.lean ====
section
/-! DEFINITION. The host procedures of spec 46: they bind the host and add nothing to the core (46 R200). Each is a
sequence of bus accesses through `memRead` and `memWrite`; the host's input and output are byte lists (log entry 16). -/

namespace Sys2Proof.Machine

/-- Bytes in host memory. -/
abbrev Bytes := List Byte

/-! ### Single accesses -/

/-- `WR <reg>, v` (30 R89). -/
def hostWrite (r : BusReg) (v : Word) (s : State) : Except Refusal State :=
  match memWrite r.offset Config.accessBytes v s with
  | .next t => .ok t
  | .refused e => .error e

/-- `RD <reg>` (30 R89). A read that answers data leaves the core as it was (20 R57); one that gets an error response
ends the procedure, never with a value (60 R229). -/
def hostRead (r : BusReg) (s : State) : Except Refusal Word :=
  match (memRead r.offset Config.accessBytes s).2 with
  | .data w => .ok w
  | .busErrorResponse => .error .noData

/-- A command, written to CMD by the host (30 R89). -/
def hostCommand (i : Instr) (s : State) : Except Refusal State :=
  hostWrite .cmd (encode i) s

/-! ### Key, nonce and counter -/

/-- `K[j] = le32(key[4j], …, key[4j+3])` (10 R23). -/
def keyWord (key : Vector Byte 32) (j : Fin 8) : Word :=
  le32 key[4 * j.val] key[4 * j.val + 1] key[4 * j.val + 2] key[4 * j.val + 3]

/-- `N[j] = le32(nonce[4j], …, nonce[4j+3])` (10 R24). -/
def nonceWord (nonce : Vector Byte 12) (j : Fin 3) : Word :=
  le32 nonce[4 * j.val] nonce[4 * j.val + 1] nonce[4 * j.val + 2] nonce[4 * j.val + 3]

/-- Writes of registers, in order. -/
def writeAll : List (Reg × Word) → State → Except Refusal State
  | [], s => .ok s
  | (r, v) :: rest, s => do
    let t ← hostWrite (.data r) v s
    writeAll rest t

/-- LoadKeyNonce(key, nonce) (46 R201). -/
def loadKeyNonce (key : Vector Byte 32) (nonce : Vector Byte 12) (s : State) : Except Refusal State :=
  writeAll ((List.finRange 8).map (fun j => (Reg.k j, keyWord key j))
    ++ (List.finRange 3).map (fun j => (Reg.n j, nonceWord nonce j))) s

/-! ### Keystream -/

/-- The exclusive or of data and keystream, as long as the shorter (46 R202). -/
def xorBytes (a b : Bytes) : Bytes := List.zipWith (fun x y => x ^^^ y) a b

/-- The 64 bytes of a block the host reads from sixteen registers (10 R28, R31). -/
def readBlock (reg : Index → Reg) (s : State) : Except Refusal Bytes := do
  let ws ← (List.finRange 16).mapM (fun j => hostRead (.data (reg j)) s)
  return serialise ws

/-- `GEN`, then the 64 bytes of KS (46 R203, R204). -/
def genBlock (s : State) : Except Refusal (Bytes × State) := do
  let t ← hostCommand .gen s
  let bytes ← readBlock Reg.ks t
  return (bytes, t)

/-- n times `GEN`, each block read before the next (46 R204; 70 R257). -/
def genBlocks : Nat → State → Except Refusal (Bytes × State)
  | 0, s => .ok ([], s)
  | n + 1, s => do
    let (b, t) ← genBlock s
    let (bs, u) ← genBlocks n t
    return (b ++ bs, u)

/-- `GEN4`, then the bytes of KS4[0], …, KS4[3] (46 R205). -/
def gen4Blocks (s : State) : Except Refusal (Bytes × State) := do
  let t ← hostCommand .gen4 s
  let bs ← (List.finRange 4).mapM (fun l => readBlock (Reg.ks4 l) t)
  return (bs.flatten, t)

/-! ### The paths -/

/-- The loop of ScalarPath, and Tail: one GEN per block of up to 64 bytes (46 R203, R204). `fuel` bounds the number of
blocks. -/
def blockLoop : Nat → Bytes → State → Except Refusal (Bytes × State)
  | 0, _, s => .ok ([], s)
  | fuel + 1, inp, s =>
    if inp = [] then .ok ([], s)
    else do
      let (ks, t) ← genBlock s
      let (out, u) ← blockLoop fuel (inp.drop 64) t
      return (xorBytes (inp.take 64) ks ++ out, u)

/-- Super-blocks of 256 bytes while 256 are left, then Tail (46 R204, R205). `four` makes the 256 keystream bytes. -/
def superLoop (four : State → Except Refusal (Bytes × State)) : Nat → Bytes → State → Except Refusal (Bytes × State)
  | 0, inp, s => blockLoop inp.length inp s
  | fuel + 1, inp, s =>
    if inp.length < 256 then blockLoop inp.length inp s
    else do
      let (ks, t) ← four s
      let (out, u) ← superLoop four fuel (inp.drop 256) t
      return (xorBytes (inp.take 256) ks ++ out, u)

/-- The common opening of a path: nothing at all for a zero length, else key, nonce and counter (46 R203). -/
def runPath (loop : Bytes → State → Except Refusal (Bytes × State)) (key : Vector Byte 32) (nonce : Vector Byte 12)
    (c : Word) (inp : Bytes) (s : State) : Except Refusal (Bytes × State) :=
  if inp = [] then .ok ([], s)
  else do
    let t ← loadKeyNonce key nonce s
    let u ← hostWrite (.data .ctr) c t
    loop inp u

/-- ScalarPath (46 R203): the output bytes and the core after it. -/
def scalarPath (key : Vector Byte 32) (nonce : Vector Byte 12) (c : Word) (inp : Bytes) (s : State) :
    Except Refusal (Bytes × State) :=
  runPath (fun i t => blockLoop i.length i t) key nonce c inp s

/-- Interleaved4Path (46 R204). -/
def interleaved4Path (key : Vector Byte 32) (nonce : Vector Byte 12) (c : Word) (inp : Bytes) (s : State) :
    Except Refusal (Bytes × State) :=
  runPath (fun i t => superLoop (genBlocks 4) i.length i t) key nonce c inp s

/-- Vectorized4Path, for a core whose CAP.LANE4 = 1 (46 R205). -/
def vectorized4Path (key : Vector Byte 32) (nonce : Vector Byte 12) (c : Word) (inp : Bytes) (s : State) :
    Except Refusal (Bytes × State) :=
  runPath (fun i t => superLoop gen4Blocks i.length i t) key nonce c inp s

/-- Dispatch: CAP is read once; it never selects ScalarPath (46 R206; 90 C2). -/
def dispatch (key : Vector Byte 32) (nonce : Vector Byte 12) (c : Word) (inp : Bytes) (s : State) :
    Except Refusal (Bytes × State) := do
  let cap ← hostRead .cap s
  if cap.getLsbD 0 then vectorized4Path key nonce c inp s else interleaved4Path key nonce c inp s

/-! ### transform -/

/-- Byte i of the keystream of (key, nonce, c) (46 R202). -/
def keystreamByte (key : Vector Byte 32) (nonce : Vector Byte 12) (c : Word) (i : Nat) : Byte :=
  let block := blockWords wordOps (initFn id (tab (keyWord key)) (tab (nonceWord nonce)) (c + BitVec.ofNat 32 (i / 64)))
  byteOf (i % 4) (block[i % 64 / 4]'(by omega))

/-- Whether two ranges of `len` bytes overlap without being the same (46 R208). -/
def partlyOverlap (outAt inAt len : Nat) : Bool :=
  outAt ≠ inAt && outAt < inAt + len && inAt < outAt + len

/-- `transform(out, in, len, key, nonce, c)` on the host's memory: out = in is allowed, a partial overlap is refused
(46 R202, R208; 93 U1). -/
def transform (mem : Bytes) (outAt inAt len : Nat) (key : Vector Byte 32) (nonce : Vector Byte 12) (c : Word)
    (s : State) : Except Refusal (Bytes × State) :=
  if partlyOverlap outAt inAt len then .error .partialOverlap
  else if mem.length < outAt + len ∨ mem.length < inAt + len then .error .bufferOutside
  else do
    let (out, t) ← dispatch key nonce c ((mem.drop inAt).take len) s
    return (mem.take outAt ++ out ++ mem.drop (outAt + len), t)

end Sys2Proof.Machine
end

