-- ==== Sys2Proof/Safety.lean ====
section
/-! DEFINITION. The terms claims use: what a run keeps (spec 10 R36, R37; 60 R222; 44 R160), and when words are valid. -/

namespace Sys2Proof

open Sys2Proof.Machine

/-- A file of data words all of which are valid, with these values (10 R22). -/
def lift {n : Nat} (ws : Vector Word n) : Vector DataWord n := ws.map some

/-- A file of lane vectors all of whose words are valid, with these values (10 R22, R29). -/
def liftLanes {m n : Nat} (vs : Vector (Vector Word m) n) : Vector (Vector DataWord m) n := vs.map lift

/-- Lane l of a file of lane vectors, as the words of one block (44 R169). -/
def laneOf {α : Type} (vs : Vector (Vector α 4) 16) (l : Lane) : Vector α 16 := vs.map (fun v => v[l])

/-- Without `HAS_LANE4` the 4-lane files do not exist: no word of them is ever valid (00 R8; 44 R160). -/
def LaneFilesAbsent (s : State) : Prop :=
  s.hasLane4 = false → ∀ r : Reg, r.isLane = true → s.rd r = none

/-- What STATUS and FINFO record belongs together (10 R36, R37; 60 R222): no fault and FINFO at its reset value; or
ILLEGAL_CMD and a word that is no command of this build; or UNINIT_OPERAND and a command of this build; or BUS_ERROR
and an access word whose bits 30:12 are zero; or UNINIT_READ and the offset of a data register of this build. -/
def FaultRecordOk (s : State) : Prop :=
  match s.status with
  | none => s.finfo = 0
  | some .illegalCmd => ∀ i : Instr, decode s.finfo = some i → i.WellFormed s.hasLane4 = false
  | some .uninitOperand => ∃ i : Instr, decode s.finfo = some i ∧ i.WellFormed s.hasLane4 = true
  | some .busError => s.finfo &&& 0x7FFFF000 = 0
  | some .uninitRead =>
    s.finfo &&& 0xFFFFF000 = 0 ∧ ∃ r : Reg, regAt s.hasLane4 (s.finfo.setWidth 12) = some (.data r)

/-- The invariant of the machine: every step keeps it, from every state that has it. -/
def Inv (s : State) : Prop := LaneFilesAbsent s ∧ FaultRecordOk s

/-! ### The tables of the spec that claims use -/

/-- The data register files (10 R21). -/
inductive FileName where
  | k | n | ctr | st | x | ks | v | vo | ks4
  deriving DecidableEq, Repr

/-- The file a register is of. -/
def fileOf : Reg → FileName
  | .k _ => .k
  | .n _ => .n
  | .ctr => .ctr
  | .st _ => .st
  | .x _ => .x
  | .ks _ => .ks
  | .v _ _ => .v
  | .vo _ _ => .vo
  | .ks4 _ _ => .ks4

/-- Whether a register is one of the named words of X (scalar commands, 30 R83). -/
def isXOf (is : List Index) : Reg → Bool
  | .x i => is.contains i
  | _ => false

/-- Whether a register is a lane of one of the named lane vectors of V (4-lane commands, 30 R83). -/
def isVOf (is : List Index) : Reg → Bool
  | .v w _ => is.contains w
  | _ => false

/-- The read set each command's rule gives it (10 R21, last column; the rules of 40 to 44). -/
def inReadSet (i : Instr) (r : Reg) : Bool :=
  match i with
  | .init | .gen | .init4 | .gen4 => fileOf r == .k || fileOf r == .n || fileOf r == .ctr
  | .xload | .block => fileOf r == .st
  | .arx a b d _ => isXOf [a, b, d] r
  | .rotl a _ => isXOf [a] r
  | .qr a b c d => isXOf [a, b, c, d] r
  | .dround | .serial => fileOf r == .x
  | .feedfwd => fileOf r == .x || fileOf r == .st
  | .vload | .block4 => fileOf r == .vo
  | .varx a b d _ => isVOf [a, b, d] r
  | .vrotl a _ => isVOf [a] r
  | .vqr a b c d => isVOf [a, b, c, d] r
  | .vdround | .vgather => fileOf r == .v
  | .vfeedfwd => fileOf r == .v || fileOf r == .vo

/-- The registers each command's rule lets it write (10 R21, the column before; the rules of 40 to 44). -/
def mayWrite (i : Instr) (r : Reg) : Bool :=
  match i with
  | .init => fileOf r == .st
  | .xload | .dround | .feedfwd => fileOf r == .x
  | .arx a _ d _ => isXOf [a, d] r
  | .rotl a _ => isXOf [a] r
  | .qr a b c d => isXOf [a, b, c, d] r
  | .serial => fileOf r == .ks
  | .block => fileOf r == .x || fileOf r == .ks
  | .gen => fileOf r == .st || fileOf r == .x || fileOf r == .ks || fileOf r == .ctr
  | .init4 => fileOf r == .vo
  | .vload | .vdround | .vfeedfwd => fileOf r == .v
  | .varx a _ d _ => isVOf [a, d] r
  | .vrotl a _ => isVOf [a] r
  | .vqr a b c d => isVOf [a, b, c, d] r
  | .vgather => fileOf r == .ks4
  | .block4 => fileOf r == .v || fileOf r == .ks4
  | .gen4 => fileOf r == .vo || fileOf r == .v || fileOf r == .ks4 || fileOf r == .ctr

/-- A register the build has (10 R21; 00 R8). -/
def Present (s : State) (r : Reg) : Prop := r.isLane = true → s.hasLane4 = true

/-- When a command executes: no fault recorded, the build has it, its whole read set valid (30 R80; 70 R252). -/
def Ready (i : Instr) (s : State) : Prop :=
  s.status = none ∧ i.WellFormed s.hasLane4 = true ∧ ∀ r : Reg, inReadSet i r = true → s.rd r ≠ none

/-- `raise E(info)` leads from s to t (60 R223): recorded when no fault was, else nothing changes. -/
def Records (s : State) (e : Cause) (info : Word) (t : State) : Prop :=
  (s.status = none ∧ t = { s with status := some e, finfo := info }) ∨ (s.status ≠ none ∧ t = s)

/-- The host's next action is not a reset. -/
def NoReset (s : State) : Prop := ∀ rest : List HostAction, s.pending ≠ .reset :: rest

/-- Commands one after another, each as `exec` gives it. -/
def runCommands : List Instr → State → Host.Outcome State Fault Refusal
  | [], s => .next s
  | i :: rest, s =>
    match exec i s with
    | .next t => runCommands rest t
    | .refused e => .refused e

/-! ### The shapes of the commands' rules -/

/-- A command without operands has one word, and any other word with its opcode is illegal (30 R88). -/
def EncodedOnlyAs (w : Word) (i : Instr) : Prop :=
  decode w = some i ∧ ∀ u : Word, u.extractLsb' 24 8 = w.extractLsb' 24 8 → u ≠ w → decode u = none

/-- With an invalid word in its read set a command does nothing but raise UNINIT_OPERAND with its word w in FINFO
(60 R226). -/
def RaisesUninit (i : Instr) (w : Word) : Prop :=
  ∀ s : State, s.status = none → i.WellFormed s.hasLane4 = true → (∃ r : Reg, inReadSet i r = true ∧ s.rd r = none) →
    exec i s = .next { s with status := some .uninitOperand, finfo := w }

/-- In a build without the 4-lane generator a command does nothing but raise ILLEGAL_CMD with its word w in FINFO
(44 R160). -/
def IllegalWithoutLane4 (i : Instr) (w : Word) : Prop :=
  ∀ s : State, s.status = none → s.hasLane4 = false →
    exec i s = .next { s with status := some .illegalCmd, finfo := w }

/-- What an ARX step on valid words makes of a file: the sum, the rotated exclusive or with the sum (0 when d = a), and
all else as it was (40 R101, R102). -/
def ArxRule (a b d : Index) (n : Nat) (x y : Vector DataWord 16) : Prop :=
  ∀ va vb vd : Word, x[a] = some va → x[b] = some vb → x[d] = some vd →
    y[d] = some (if d = a then 0 else rotl32 (vd ^^^ (va + vb)) n)
      ∧ (a ≠ d → y[a] = some (va + vb))
      ∧ ∀ i : Index, i ≠ a → i ≠ d → y[i] = x[i]

/-- What a quarter round on four different valid words makes of a file: the four lines, and all else as it was
(40 R106). -/
def QrRule (a b c d : Index) (x y : Vector DataWord 16) : Prop :=
  ∀ va vb vc vd : Word, x[a] = some va → x[b] = some vb → x[c] = some vc → x[d] = some vd →
    [a, b, c, d].Nodup →
    let a1 := va + vb
    let d1 := rotl32 (vd ^^^ a1) 16
    let c1 := vc + d1
    let b1 := rotl32 (vb ^^^ c1) 12
    let a2 := a1 + b1
    let d2 := rotl32 (d1 ^^^ a2) 8
    let c2 := c1 + d2
    let b2 := rotl32 (b1 ^^^ c2) 7
    y[a] = some a2 ∧ y[b] = some b2 ∧ y[c] = some c2 ∧ y[d] = some d2

/-- The four lines of a quarter round one after another, each on what the line before left, for equal indices too
(40 R101, R106). -/
def QrLines (a b c d : Index) (x y : Vector DataWord 16) : Prop :=
  ∃ y1 y2 y3 : Vector DataWord 16,
    ArxRule a b d 16 x y1 ∧ ArxRule c d b 12 y1 y2 ∧ ArxRule a b d 8 y2 y3 ∧ ArxRule c d b 7 y3 y

/-- Quarter rounds on a list of quadruples, one after another (40 R109). -/
def QrChain : List (Index × Index × Index × Index) → Vector DataWord 16 → Vector DataWord 16 → Prop
  | [], x, y => y = x
  | (a, b, c, d) :: qs, x, y => ∃ z : Vector DataWord 16, QrLines a b c d x z ∧ QrChain qs z y

/-- The four lines of the quarter round as ARX commands (40 R106). -/
def qrAsArx (a b c d : Index) : List Instr :=
  [.arx a b d .r16, .arx c d b .r12, .arx a b d .r8, .arx c d b .r7]

/-- The same for lane vectors (44 R169). -/
def vqrAsVarx (a b c d : Index) : List Instr :=
  [.varx a b d .r16, .varx c d b .r12, .varx a b d .r8, .varx c d b .r7]

/-- The eight quarter rounds of a double round, in order (40 R108, R109). -/
def droundAsQr : List Instr :=
  [.qr 0 4 8 12, .qr 1 5 9 13, .qr 2 6 10 14, .qr 3 7 11 15,
   .qr 0 5 10 15, .qr 1 6 11 12, .qr 2 7 8 13, .qr 3 4 9 14]

/-- BLOCK as its step commands (41 R126). -/
def blockAsSteps : List Instr :=
  [.xload] ++ List.replicate 10 .dround ++ [.feedfwd, .serial]

/-- BLOCK4 as its step commands (44 R177). -/
def block4AsSteps : List Instr :=
  [.vload] ++ List.replicate 10 .vdround ++ [.vfeedfwd, .vgather]

/-- The state of one block: InitFn of key, nonce and counter words (42 R141). -/
def initWords (k : Vector Word 8) (n : Vector Word 3) (c : Word) : Vector Word 16 := initFn id k n c

end Sys2Proof
end

