-- ==== Sys2Proof/Certificates/Slice0/Obligations.lean ====
section
/-! DEFINITION. The statements for the provers, each from a numbered rule of the spec or derived from several. -/

open Sys2Proof Sys2Proof.Machine

/-! ### Words, encoding, decoding -/

/-- 00 R12, 30 R86: the word operations in terms of numbers, lane by lane on lane vectors, and the four rotation amounts
ROT(0..3) = 16, 12, 8, 7. -/
def Obligations.WordOperationsAreModular : Prop :=
  (∀ a b : Word, (wordOps.add a b).toNat = (a.toNat + b.toNat) % 2 ^ 32) ∧
  (∀ a b : Word, (wordOps.xor a b).toNat = a.toNat ^^^ b.toNat) ∧
  (∀ (v : Word) (n : Nat), 1 ≤ n → n ≤ 31 →
    (wordOps.rotl v n).toNat = ((v.toNat <<< n) ||| (v.toNat >>> (32 - n))) % 2 ^ 32) ∧
  (∀ (u v : Vector Word 4) (n : Nat) (l : Lane),
    ((laneOps wordOps).add u v)[l] = wordOps.add u[l] v[l] ∧
    ((laneOps wordOps).xor u v)[l] = wordOps.xor u[l] v[l] ∧
    ((laneOps wordOps).rotl u n)[l] = wordOps.rotl u[l] n) ∧
  (Rot.ofCode 0).amount = 16 ∧ (Rot.ofCode 1).amount = 12 ∧ (Rot.ofCode 2).amount = 8 ∧ (Rot.ofCode 3).amount = 7

/-- 00 R13: byte k of a word is its bits 8k+7..8k, le32 puts four bytes together little-endian, the two undo each other,
and byte 4j+k of a serialisation is byte k of word j. -/
def Obligations.BytesAreLittleEndian : Prop :=
  (∀ (w : Word) (k : Nat), k < 4 → (byteOf k w).toNat = w.toNat / 2 ^ (8 * k) % 2 ^ 8) ∧
  (∀ b0 b1 b2 b3 : Byte,
    (le32 b0 b1 b2 b3).toNat = b0.toNat + b1.toNat * 2 ^ 8 + b2.toNat * 2 ^ 16 + b3.toNat * 2 ^ 24) ∧
  (∀ w : Word, le32 (byteOf 0 w) (byteOf 1 w) (byteOf 2 w) (byteOf 3 w) = w) ∧
  (∀ (ws : List Word) (j k : Nat) (w : Word), k < 4 → ws[j]? = some w →
    (serialise ws)[4 * j + k]? = some (byteOf k w))

/-- Decode and encode agree: the word of every command, with every operand at every value, decodes to that command. -/
def Obligations.DecodeOfEncodeIsTheCommand : Prop :=
  ∀ i : Instr, decode (encode i) = some i

/-- No bit of a legal word is dropped: the word that decodes to a command is its one encoding. -/
def Obligations.EncodeOfDecodeIsTheWord : Prop :=
  ∀ (w : Word) (i : Instr), decode w = some i → encode i = w

/-- 30 R87: the encoder as a number, unused fields 0, and its two examples. -/
def Obligations.EncoderPutsFieldsTogether : Prop :=
  (∀ (op : BitVec 8) (a b c d : Index) (r : BitVec 2),
    (enc op a b c d r).toNat = op.toNat * 2 ^ 24 + a.val * 2 ^ 20 + b.val * 2 ^ 16 + c.val * 2 ^ 12 + d.val * 2 ^ 8
      + r.toNat) ∧
  (∀ (a b c d : Index) (r : Rot),
    encode (.arx a b d r) = enc 0x03 a b 0 d r.code ∧ encode (.rotl a r) = enc 0x04 a 0 0 0 r.code ∧
    encode (.qr a b c d) = enc 0x05 a b c d 0 ∧ encode (.varx a b d r) = enc 0x13 a b 0 d r.code ∧
    encode (.vrotl a r) = enc 0x14 a 0 0 0 r.code ∧ encode (.vqr a b c d) = enc 0x15 a b c d 0) ∧
  [.init, .xload, .dround, .feedfwd, .serial, .block, .gen].map encode
    = [0x01000000, 0x02000000, 0x06000000, 0x07000000, 0x08000000, 0x09000000, 0x0A000000] ∧
  [.init4, .vload, .vdround, .vfeedfwd, .vgather, .block4, .gen4].map encode
    = [0x11000000, 0x12000000, 0x16000000, 0x17000000, 0x18000000, 0x19000000, 0x1A000000] ∧
  encode (.qr 0 4 8 12) = 0x05048C00 ∧ encode (.arx 2 7 13 .r12) = 0x03270D01

/-- 30 R88, 60 R224: exactly the words with an assigned opcode and zero in RSV and in every field the command does not
use are commands; every other word, and a 4-lane command of a build without the generator, raises ILLEGAL_CMD with the
word in FINFO and changes nothing else. -/
def Obligations.IllegalWordsRaiseIllegalCmd : Prop :=
  (∀ w : Word, decode w ≠ none ↔
    (w.extractLsb' 24 8 ∈ [0x01, 0x02, 0x06, 0x07, 0x08, 0x09, 0x0A, 0x11, 0x12, 0x16, 0x17, 0x18, 0x19, 0x1A] ∧
      w.extractLsb' 0 24 = 0) ∨
    (w.extractLsb' 24 8 ∈ [0x03, 0x13] ∧ w.extractLsb' 12 4 = 0 ∧ w.extractLsb' 2 6 = 0) ∨
    (w.extractLsb' 24 8 ∈ [0x04, 0x14] ∧ w.extractLsb' 2 18 = 0) ∨
    (w.extractLsb' 24 8 ∈ [0x05, 0x15] ∧ w.extractLsb' 0 8 = 0)) ∧
  (∀ (w : Word) (s : State), s.status = none → decode w = none →
    memWrite 0x008 4 w s = .next { s with status := some .illegalCmd, finfo := w }) ∧
  (∀ (w : Word) (s : State), s.status = none → s.hasLane4 = false → 0x11 ≤ w.toNat / 2 ^ 24 → w.toNat / 2 ^ 24 ≤ 0x1A →
    memWrite 0x008 4 w s = .next { s with status := some .illegalCmd, finfo := w })

/-- A few words, written out from 30 R81 and R85 and the spec's examples, decode to the commands they stand for. -/
def Obligations.ExampleWordsDecode : Prop :=
  decode 0x05048C00 = some (.qr 0 4 8 12) ∧ decode 0x03270D01 = some (.arx 2 7 13 .r12) ∧
  decode 0x04500003 = some (.rotl 5 .r7) ∧ decode 0x0A000000 = some .gen ∧ decode 0x01000000 = some .init ∧
  decode 0x13010300 = some (.varx 0 1 3 .r16) ∧ decode 0x14200003 = some (.vrotl 2 .r7) ∧
  decode 0x15012300 = some (.vqr 0 1 2 3) ∧ decode 0x19000000 = some .block4 ∧
  decode 0x00000000 = none ∧ decode 0x0B000000 = none ∧ decode 0x04510000 = none ∧ decode 0x050000FC = none

/-- 30 R89: the assembler reads back what a command is written as, and refuses an index above 15 and any amount but 16,
12, 8 and 7. -/
def Obligations.AssemblerReadsItsOwnLines : Prop :=
  (∀ i : Instr, (disassemble i).WellFormed = true ∧ assemble (disassemble i) = some i) ∧
  (∀ (l : AsmLine) (i : Instr), assemble l = some i → l = disassemble i) ∧
  (∀ n : Nat, (AsmOperand.x n).WellFormed = true ↔ n ≤ 15) ∧ (∀ n : Nat, (AsmOperand.v n).WellFormed = true ↔ n ≤ 15) ∧
  (∀ n : Nat, (AsmOperand.amount n).WellFormed = true ↔ n ∈ [16, 12, 8, 7]) ∧
  (∀ l : AsmLine, l.WellFormed = false → assemble l = none)

/-! ### The step and the bus -/

/-- A step runs the decoded command: when the host's next action is the CMD write of a word that decodes to a command,
the step is `exec` of that command with the action taken off the host's list; and `withFetchWord` makes it so. -/
def Obligations.StepRunsTheDecodedCommand : Prop :=
  (∀ (s : State) (w : Word) (i : Instr) (rest : List HostAction), s.pending = .write 0x008 4 w :: rest →
    decode w = some i → step s = exec i { s with pending := rest }) ∧
  (∀ (s : State) (w : Nat) (i : Instr), decodeTableWord 32 w = some i →
    step (s.withFetchWord 32 w) = exec i s)

/-- 20 R58, R63 and the model's host side: a step is the host's next access, whole; a read's answer is appended to what
the host got; with nothing left to do the state is held (60 R242). -/
def Obligations.StepPerformsTheNextAccess : Prop :=
  (∀ s : State, s.pending = [] → step s = .next s) ∧
  (∀ (s : State) (off : Offset) (n : Nat) (rest : List HostAction), s.pending = .read off n :: rest →
    ∃ (t : State) (r : Response), memRead off n { s with pending := rest } = (t, r) ∧
      step s = .next { t with responses := s.responses ++ [r] }) ∧
  (∀ (s : State) (off : Offset) (n : Nat) (v : Word) (rest : List HostAction), s.pending = .write off n v :: rest →
    step s = memWrite off n v { s with pending := rest })

/-- 60 R221: a fault does not stop the core, and nothing else does: every command and every step answers a next
state. -/
def Obligations.NothingStopsTheCore : Prop :=
  (∀ (i : Instr) (s : State), ∃ t : State, exec i s = .next t) ∧ (∀ s : State, ∃ t : State, step s = .next t)

/-- 20 R51: the register map, both ways: each register at its offset, the 4-lane part only with HAS_LANE4, and nothing
at a reserved offset; CAP, STATUS, FINFO, KS and KS4 are the read-only ones (CMD, the write-only one, is in
`BadAccessesRaiseBusError`). -/
def Obligations.RegisterMapIsTheTable : Prop :=
  (∀ b : Bool, regAt b 0x000 = some .cap ∧ regAt b 0x004 = some .status ∧ regAt b 0x008 = some .cmd ∧
    regAt b 0x00C = some .finfo ∧ regAt b 0x04C = some (.data .ctr)) ∧
  (∀ (b : Bool) (j : Fin 8), regAt b (BitVec.ofNat 12 (0x020 + 4 * j.val)) = some (.data (.k j))) ∧
  (∀ (b : Bool) (j : Fin 3), regAt b (BitVec.ofNat 12 (0x040 + 4 * j.val)) = some (.data (.n j))) ∧
  (∀ (b : Bool) (i : Index), regAt b (BitVec.ofNat 12 (0x080 + 4 * i.val)) = some (.data (.st i)) ∧
    regAt b (BitVec.ofNat 12 (0x0C0 + 4 * i.val)) = some (.data (.x i)) ∧
    regAt b (BitVec.ofNat 12 (0x100 + 4 * i.val)) = some (.data (.ks i))) ∧
  (∀ (w : Index) (l : Lane), regAt true (BitVec.ofNat 12 (0x200 + 16 * w.val + 4 * l.val)) = some (.data (.v w l)) ∧
    regAt true (BitVec.ofNat 12 (0x300 + 16 * w.val + 4 * l.val)) = some (.data (.vo w l)) ∧
    regAt true (BitVec.ofNat 12 (0x400 + 64 * l.val + 4 * w.val)) = some (.data (.ks4 l w))) ∧
  (∀ (b : Bool) (off : Offset) (r : BusReg), off.extractLsb' 0 2 = 0 → regAt b off = some r → off = r.offset) ∧
  (∀ (b : Bool) (off : Offset),
    (0x010 ≤ off.toNat ∧ off.toNat < 0x020) ∨ (0x050 ≤ off.toNat ∧ off.toNat < 0x080) ∨
    (0x140 ≤ off.toNat ∧ off.toNat < 0x200) ∨ 0x500 ≤ off.toNat → regAt b off = none) ∧
  (∀ off : Offset, 0x200 ≤ off.toNat → regAt false off = none) ∧
  (∀ r : BusReg, r.readOnly = true ↔
    r ∈ [.cap, .status, .finfo] ∨ (∃ j, r = .data (.ks j)) ∨ ∃ l j, r = .data (.ks4 l j))

/-- 20 R52, R53, R54, 60 R227: an access of another size, a misaligned one, one to an offset that is not mapped, a write
to a read-only register and a read of CMD raise BUS_ERROR with the kind and the offset in FINFO; a read gets an error
response; nothing is read or written. -/
def Obligations.BadAccessesRaiseBusError : Prop :=
  (∀ (s : State) (off : Offset) (n : Nat) (v : Word),
    n ≠ 4 ∨ off.extractLsb' 0 2 ≠ 0 ∨ regAt s.hasLane4 off = none →
      (∃ t : State, memRead off n s = (t, .busErrorResponse) ∧ Records s .busError (off.setWidth 32) t) ∧
      (∃ t : State, memWrite off n v s = .next t ∧ Records s .busError (0x80000000 ||| off.setWidth 32) t)) ∧
  (∀ (s : State) (off : Offset) (v : Word), off ∈ [0x000, 0x004, 0x00C] →
    ∃ t : State, memWrite off 4 v s = .next t ∧ Records s .busError (0x80000000 ||| off.setWidth 32) t) ∧
  (∀ (s : State) (j : Index) (v : Word),
    ∃ t : State, memWrite (BusReg.data (.ks j)).offset 4 v s = .next t ∧
      Records s .busError (0x80000000 ||| (BusReg.data (.ks j)).offset.setWidth 32) t) ∧
  (∀ (s : State) (l : Lane) (j : Index) (v : Word),
    ∃ t : State, memWrite (BusReg.data (.ks4 l j)).offset 4 v s = .next t ∧
      Records s .busError (0x80000000 ||| (BusReg.data (.ks4 l j)).offset.setWidth 32) t) ∧
  (∀ s : State, ∃ t : State, memRead 0x008 4 s = (t, .busErrorResponse) ∧ Records s .busError 0x00000008 t)

/-- 20 R55, 60 R228: a read of a present data register gives its value and changes nothing, or, when its valid bit is 0,
raises UNINIT_READ with an error response; CAP, STATUS and FINFO always read; and the rule's example, CTR after reset.
-/
def Obligations.ReadsGiveValuesOrUninitRead : Prop :=
  (∀ (s : State) (r : Reg) (w : Word), Present s r → s.rd r = some w →
    memRead (BusReg.data r).offset 4 s = (s, .data w)) ∧
  (∀ (s : State) (r : Reg), Present s r → s.rd r = none →
    ∃ t : State, memRead (BusReg.data r).offset 4 s = (t, .busErrorResponse) ∧
      Records s .uninitRead ((BusReg.data r).offset.setWidth 32) t) ∧
  (∀ s : State, memRead 0x000 4 s = (s, .data s.capWord) ∧ memRead 0x004 4 s = (s, .data s.statusWord) ∧
    memRead 0x00C 4 s = (s, .data s.finfo)) ∧
  (∀ b : Bool, ∃ t : State, memRead 0x04C 4 (State.resetWith b) = (t, .busErrorResponse) ∧ t.statusWord = 0x00000041 ∧
    t.finfo = 0x0000004C)

/-- 20 R56, R57: a write of a present writable data register sets it and its valid bit and nothing else, a read then
gives the value, and writing the same value again changes nothing; a read that answers data changes nothing. -/
def Obligations.WritesSetOneRegister : Prop :=
  (∀ (s : State) (r : Reg) (v : Word), Present s r → (BusReg.data r).readOnly = false →
    ∃ t : State, memWrite (BusReg.data r).offset 4 v s = .next t ∧ t.rd r = some v ∧
      (∀ q : Reg, q ≠ r → t.rd q = s.rd q) ∧ t.hasLane4 = s.hasLane4 ∧ t.status = s.status ∧ t.finfo = s.finfo ∧
      t.pending = s.pending ∧ t.responses = s.responses ∧
      memRead (BusReg.data r).offset 4 t = (t, .data v) ∧ memWrite (BusReg.data r).offset 4 v t = .next t) ∧
  (∀ (s t : State) (off : Offset) (n : Nat) (w : Word), memRead off n s = (t, .data w) → t = s)

/-- 60 R231, R234: while FAULT = 1 a CMD write is discarded, data writes are taken and reads answer as always, an access
that would raise still fails and changes nothing; no step but a reset changes STATUS or FINFO then, and a reset clears
FAULT. -/
def Obligations.FirstFaultSticksUntilReset : Prop :=
  (∀ (s : State) (w : Word), s.status ≠ none → memWrite 0x008 4 w s = .next s) ∧
  (∀ (s : State) (r : Reg) (v : Word), s.status ≠ none → Present s r → (BusReg.data r).readOnly = false →
    ∃ t : State, memWrite (BusReg.data r).offset 4 v s = .next t ∧ t.rd r = some v ∧
      (∀ q : Reg, q ≠ r → t.rd q = s.rd q) ∧ t.status = s.status ∧ t.finfo = s.finfo) ∧
  (∀ (s : State) (r : Reg) (v : Word), s.status ≠ none → Present s r → s.rd r = some v →
    memRead (BusReg.data r).offset 4 s = (s, .data v)) ∧
  (∀ (s : State) (r : Reg), s.status ≠ none → Present s r → s.rd r = none →
    memRead (BusReg.data r).offset 4 s = (s, .busErrorResponse)) ∧
  (∀ s : State, s.status ≠ none → memRead 0x000 4 s = (s, .data s.capWord) ∧
    memRead 0x004 4 s = (s, .data s.statusWord) ∧ memRead 0x00C 4 s = (s, .data s.finfo) ∧
    memRead 0x008 4 s = (s, .busErrorResponse)) ∧
  (∀ (s : State) (off : Offset) (n : Nat) (v : Word), s.status ≠ none →
    n ≠ 4 ∨ off.extractLsb' 0 2 ≠ 0 ∨ regAt s.hasLane4 off = none →
      memRead off n s = (s, .busErrorResponse) ∧ memWrite off n v s = .next s) ∧
  (∀ (s : State) (b : BusReg) (v : Word), s.status ≠ none → b.readOnly = true → memWrite b.offset 4 v s = .next s) ∧
  (∀ s t : State, s.status ≠ none → NoReset s → step s = .next t → t.status = s.status ∧ t.finfo = s.finfo) ∧
  (∀ (s : State) (rest : List HostAction), s.pending = .reset :: rest → ∃ t : State, step s = .next t ∧ t.status = none)

/-- 10 R35, R36: CAP and STATUS as words: LANE4 in CAP bit 0, FAULT in STATUS bit 0, CAUSE in bits 7:4, all other bits
0, CAUSE 0 exactly when FAULT is 0; a write to either raises BUS_ERROR (in `BadAccessesRaiseBusError`). -/
def Obligations.ControlWordsHaveTheirFields : Prop :=
  (∀ s : State, s.capWord.extractLsb' 0 1 = (if s.hasLane4 then 1 else 0) ∧ s.capWord.extractLsb' 1 31 = 0) ∧
  (∀ s : State, s.statusWord.extractLsb' 0 1 = (if s.status = none then 0 else 1) ∧
    s.statusWord.extractLsb' 1 3 = 0 ∧ s.statusWord.extractLsb' 8 24 = 0 ∧
    (s.statusWord.extractLsb' 4 4).toNat ≤ 4 ∧
    (s.statusWord.extractLsb' 4 4 = 0 ↔ s.statusWord.extractLsb' 0 1 = 0)) ∧
  (∀ s : State, s.status = some .illegalCmd → s.statusWord = 0x11) ∧
  (∀ s : State, s.status = some .uninitOperand → s.statusWord = 0x21) ∧
  (∀ s : State, s.status = some .busError → s.statusWord = 0x31) ∧
  (∀ s : State, s.status = some .uninitRead → s.statusWord = 0x41)

/-! ### Reset -/

/-- 70 R250: reset, between two accesses: every valid bit clear, STATUS = 0, FINFO = 0, CAP as it was, and the host goes
on with its next action. -/
def Obligations.ResetClearsTheCore : Prop :=
  ∀ (s : State) (rest : List HostAction), s.pending = .reset :: rest →
    ∃ t : State, step s = .next t ∧ (∀ r : Reg, t.rd r = none) ∧ t.statusWord = 0 ∧ t.finfo = 0 ∧
      t.hasLane4 = s.hasLane4 ∧ t.capWord = s.capWord ∧ t.pending = rest ∧ t.responses = s.responses

/-- 10 R41: the state right after reset, of either build. -/
def Obligations.ResetStateIsTheTable : Prop :=
  ∀ b : Bool, (∀ r : Reg, (State.resetWith b).rd r = none) ∧ (State.resetWith b).statusWord = 0 ∧
    (State.resetWith b).finfo = 0 ∧ (State.resetWith b).capWord = (if b then 1 else 0)

/-! ### Rules of the whole machine -/

/-- Every step keeps the invariant: without HAS_LANE4 no word of a 4-lane file is ever valid, and STATUS and FINFO record
a fault that belongs together. -/
def Obligations.EveryStepKeepsTheInvariant : Prop :=
  ∀ s t : State, Inv s → step s = .next t → Inv t

/-- The invariant holds after reset, of either build. -/
def Obligations.ResetHasTheInvariant : Prop :=
  Inv State.reset ∧ ∀ b : Bool, Inv (State.resetWith b)

/-- 10 R22: no operation clears a valid bit except reset; a command or a bus write sets it on what it writes. -/
def Obligations.ValidBitsAreNeverCleared : Prop :=
  (∀ s t : State, NoReset s → step s = .next t → ∀ r : Reg, s.rd r ≠ none → t.rd r ≠ none) ∧
  (∀ (i : Instr) (s t : State) (r : Reg), Ready i s → exec i s = .next t → mayWrite i r = true → t.rd r ≠ none)

/-- 60 R230: a step that records a fault changes no data register, no valid bit and not CTR. -/
def Obligations.FaultsArePrecise : Prop :=
  ∀ s t : State, NoReset s → step s = .next t → (t.status ≠ s.status ∨ t.finfo ≠ s.finfo) →
    s.status = none ∧ t.status ≠ none ∧ t.hasLane4 = s.hasLane4 ∧ ∀ r : Reg, t.rd r = s.rd r

/-- 10 R25, 60 R238: CTR changes only by reset, by a host write of it, by GEN (+1) and by GEN4 (+4), modulo 2^32. -/
def Obligations.CounterMovesOnlyByWriteOrGenerator : Prop :=
  ∀ s t : State, NoReset s → step s = .next t → t.ctr ≠ s.ctr →
    (∃ (v : Word) (rest : List HostAction), s.pending = .write 0x04C 4 v :: rest ∧ t.ctr = some v) ∨
    (∃ (c : Word) (rest : List HostAction), s.ctr = some c ∧ s.pending = .write 0x008 4 0x0A000000 :: rest ∧
      t.ctr = some (c + 1)) ∨
    (∃ (c : Word) (rest : List HostAction), s.ctr = some c ∧ s.pending = .write 0x008 4 0x1A000000 :: rest ∧
      t.ctr = some (c + 4))

/-- 10 R23, R24, R35: K and N change only by a host write of that word or by reset, and CAP never changes. -/
def Obligations.KeyNonceAndCapabilityAreTheHosts : Prop :=
  (∀ s t : State, step s = .next t → t.hasLane4 = s.hasLane4 ∧ t.capWord = s.capWord) ∧
  (∀ (s t : State) (r : Reg), fileOf r = .k ∨ fileOf r = .n → NoReset s → step s = .next t → t.rd r ≠ s.rd r →
    ∃ (v : Word) (rest : List HostAction), s.pending = .write (BusReg.data r).offset 4 v :: rest ∧ t.rd r = some v)

/-- 10 R21, R32 (frame of every command): a command leaves every register outside the ones its rule writes, CAP and the
host's side as they were, and it changes STATUS and FINFO only when it changes no register at all. -/
def Obligations.CommandsWriteOnlyTheirFiles : Prop :=
  ∀ (i : Instr) (s t : State), exec i s = .next t →
    (∀ r : Reg, mayWrite i r = false → t.rd r = s.rd r) ∧ t.hasLane4 = s.hasLane4 ∧ t.pending = s.pending ∧
    t.responses = s.responses ∧
    ((t.status = s.status ∧ t.finfo = s.finfo) ∨ ∀ r : Reg, t.rd r = s.rd r)

/-- 10 R21, 70 R258: what a command does depends on its read set alone: two states that agree on it (and on CAP, STATUS
and FINFO) record the same fault or end with the same values in what the command writes. -/
def Obligations.CommandsDependOnlyOnTheirReadSet : Prop :=
  ∀ (i : Instr) (s s' t t' : State), s.hasLane4 = s'.hasLane4 → s.status = s'.status → s.finfo = s'.finfo →
    (∀ r : Reg, inReadSet i r = true → s.rd r = s'.rd r) → exec i s = .next t → exec i s' = .next t' →
    t.status = t'.status ∧ t.finfo = t'.finfo ∧
    (t.status = none → ∀ r : Reg, mayWrite i r = true → t.rd r = t'.rd r)

/-- 30 R80, 60 R226, R232: the checks of every command in their order: discarded while FAULT = 1, then ILLEGAL_CMD, then
UNINIT_OPERAND over the whole read set, with the command word in FINFO and nothing else changed; and when none applies
the command runs and records nothing. -/
def Obligations.CommandChecksInOrder : Prop :=
  (∀ (i : Instr) (s : State), s.status ≠ none → exec i s = .next s) ∧
  (∀ (i : Instr) (s : State), s.status = none → i.WellFormed s.hasLane4 = false →
    exec i s = .next { s with status := some .illegalCmd, finfo := encode i }) ∧
  (∀ (i : Instr) (s : State), s.status = none → i.WellFormed s.hasLane4 = true →
    (∃ r : Reg, inReadSet i r = true ∧ s.rd r = none) →
    exec i s = .next { s with status := some .uninitOperand, finfo := encode i }) ∧
  (∀ (i : Instr) (s : State), Ready i s → ∃ t : State, exec i s = .next t ∧ t.status = none ∧ t.finfo = s.finfo)

/-! ### The datapath -/

/-- 40 R102: ARX. -/
def Obligations.ArxAddsThenXorsAndRotates : Prop :=
  (∀ (a b d : Index) (r : Rot), decode (enc 0x03 a b 0 d r.code) = some (.arx a b d r) ∧
    RaisesUninit (.arx a b d r) (enc 0x03 a b 0 d r.code)) ∧
  (∀ w : Word, w.extractLsb' 24 8 = 0x03 → (w.extractLsb' 12 4 ≠ 0 ∨ w.extractLsb' 2 6 ≠ 0) → decode w = none) ∧
  (∀ (a b d : Index) (r : Rot) (s : State), Ready (.arx a b d r) s →
    ∃ y : Vector DataWord 16, exec (.arx a b d r) s = .next { s with x := y } ∧ ArxRule a b d r.amount s.x y)

/-- 40 R104: ROTL; 0 and FFFFFFFF are fixed points. -/
def Obligations.RotlRotatesOneWord : Prop :=
  (∀ (a : Index) (r : Rot), decode (enc 0x04 a 0 0 0 r.code) = some (.rotl a r) ∧
    RaisesUninit (.rotl a r) (enc 0x04 a 0 0 0 r.code)) ∧
  (∀ w : Word, w.extractLsb' 24 8 = 0x04 → w.extractLsb' 2 18 ≠ 0 → decode w = none) ∧
  (∀ (a : Index) (r : Rot) (s : State) (v : Word), s.status = none → s.x[a] = some v →
    exec (.rotl a r) s = .next { s with x := s.x.set a (some (rotl32 v r.amount)) } ∧
    (v = 0 ∨ v = 0xFFFFFFFF → rotl32 v r.amount = v))

/-- 40 R101, R106: QR: its four lines in order, for equal indices too, their values on different words written out, all
else as it was; the all-zero quadruple is a fixed point. -/
def Obligations.QrIsItsFourLines : Prop :=
  (∀ a b c d : Index, decode (enc 0x05 a b c d 0) = some (.qr a b c d) ∧
    RaisesUninit (.qr a b c d) (enc 0x05 a b c d 0)) ∧
  (∀ w : Word, w.extractLsb' 24 8 = 0x05 → w.extractLsb' 0 8 ≠ 0 → decode w = none) ∧
  (∀ (a b c d : Index) (s : State), Ready (.qr a b c d) s →
    ∃ y : Vector DataWord 16, exec (.qr a b c d) s = .next { s with x := y } ∧ QrLines a b c d s.x y ∧
      QrRule a b c d s.x y ∧ (∀ i : Index, i ∉ [a, b, c, d] → y[i] = s.x[i]) ∧
      ((∀ i ∈ [a, b, c, d], s.x[i] = some 0) → y = s.x))

/-- 40 R108, R109: DROUND: the quarter rounds on the columns, then on the diagonals, in order; diagonals before columns
is another function. -/
def Obligations.DroundIsColumnsThenDiagonals : Prop :=
  EncodedOnlyAs 0x06000000 .dround ∧ RaisesUninit .dround 0x06000000 ∧
  (∀ (s : State) (x : Vector Word 16), s.status = none → s.x = lift x →
    exec .dround s = .next { s with x := lift (doubleRound wordOps x) } ∧
    QrChain [(0, 4, 8, 12), (1, 5, 9, 13), (2, 6, 10, 14), (3, 7, 11, 15),
      (0, 5, 10, 15), (1, 6, 11, 12), (2, 7, 8, 13), (3, 4, 9, 14)] (lift x) (lift (doubleRound wordOps x))) ∧
  ∃ x : Vector Word 16, pass wordOps (pass wordOps x diagonals) columns ≠ doubleRound wordOps x

/-- The inference 40 R108 marks as derived: the four quadruples of one pass are disjoint, so their order within the pass
does not change the result; with the quadruples of the two passes. -/
def Obligations.OrderWithinAPassDoesNotMatter : Prop :=
  columns = [(0, 4, 8, 12), (1, 5, 9, 13), (2, 6, 10, 14), (3, 7, 11, 15)] ∧
  diagonals = [(0, 5, 10, 15), (1, 6, 11, 12), (2, 7, 8, 13), (3, 4, 9, 14)] ∧
  (∀ (x : Vector Word 16) (qs : List (Index × Index × Index × Index)), qs.Perm columns →
    pass wordOps x qs = pass wordOps x columns) ∧
  (∀ (x : Vector Word 16) (qs : List (Index × Index × Index × Index)), qs.Perm diagonals →
    pass wordOps x qs = pass wordOps x diagonals)

/-- 40 R110, which the spec marks as derived: ten DROUND commands make the 20 rounds, which are 80 quarter rounds, 40 on columns and 40 on
diagonals. -/
def Obligations.TenDroundsAreEightyQuarterRounds : Prop :=
  (∀ (s : State) (x : Vector Word 16), s.status = none → s.x = lift x →
    runCommands (List.replicate 10 .dround) s = .next { s with x := lift (permutation wordOps x) }) ∧
  (∀ x : Vector Word 16,
    permutation wordOps x = pass wordOps x (List.replicate 10 (columns ++ diagonals)).flatten) ∧
  (List.replicate 10 (columns ++ diagonals)).flatten.length = 80

/-- The glossary's Permutation entry (00 §5; 90 C4): the 20 rounds are invertible on the 16-word state, so two states
with one image are one state. -/
def Obligations.PermutationIsInjective : Prop :=
  ∀ x y : Vector Word 16, permutation wordOps x = permutation wordOps y → x = y

/-! ### The block core -/

/-- 41 R120: XLOAD. -/
def Obligations.XloadCopiesStIntoX : Prop :=
  EncodedOnlyAs 0x02000000 .xload ∧ RaisesUninit .xload 0x02000000 ∧
  (∀ (s : State) (st : Vector Word 16), s.status = none → s.st = lift st →
    exec .xload s = .next { s with x := lift st })

/-- 41 R122: FEEDFWD: the value added is what ST holds when it runs. -/
def Obligations.FeedfwdAddsStToX : Prop :=
  EncodedOnlyAs 0x07000000 .feedfwd ∧ RaisesUninit .feedfwd 0x07000000 ∧
  (∀ (s : State) (st x : Vector Word 16), s.status = none → s.st = lift st → s.x = lift x →
    ∃ y : Vector Word 16, exec .feedfwd s = .next { s with x := lift y } ∧ ∀ i : Index, y[i] = x[i] + st[i])

/-- 41 R124: SERIAL: X is copied to KS, whose bytes are its words little-endian. -/
def Obligations.SerialCopiesXToKs : Prop :=
  EncodedOnlyAs 0x08000000 .serial ∧ RaisesUninit .serial 0x08000000 ∧
  (∀ (s : State) (x : Vector Word 16), s.status = none → s.x = lift x →
    exec .serial s = .next { s with ks := lift x }) ∧
  (∀ (s : State) (x : Vector Word 16) (j : Index) (k : Nat), k < 4 → s.ks = lift x →
    readBlock Reg.ks s = .ok (serialise x.toList) ∧ (serialise x.toList)[4 * j.val + k]? = some (byteOf k x[j]))

/-- 41 R126, R128: BLOCK: the feed-forward of the permutation of ST, left in X and KS; X's valid bits are not checked. -/
def Obligations.BlockIsPermutationAndFeedForward : Prop :=
  EncodedOnlyAs 0x09000000 .block ∧ RaisesUninit .block 0x09000000 ∧
  (∀ (s : State) (st : Vector Word 16), s.status = none → s.st = lift st →
    ∃ y : Vector Word 16, exec .block s = .next { s with x := lift y, ks := lift y } ∧
      (∀ i : Index, y[i] = (permutation wordOps st)[i] + st[i]) ∧ y = blockWords wordOps st ∧
      blockBytes st = serialise y.toList)

/-! ### The initializer and the scalar generator -/

/-- 42 R140, R142: INIT: constants, key, counter and nonce words in ST, from no register but K, N and CTR; CTR is not
changed. -/
def Obligations.InitBuildsTheCipherState : Prop :=
  EncodedOnlyAs 0x01000000 .init ∧ RaisesUninit .init 0x01000000 ∧
  (∀ (s : State) (k : Vector Word 8) (n : Vector Word 3) (c : Word), s.status = none → s.k = lift k → s.n = lift n →
    s.ctr = some c →
    exec .init s = .next { s with st := lift #v[0x61707865, 0x3320646E, 0x79622D32, 0x6B206574,
      k[0], k[1], k[2], k[3], k[4], k[5], k[6], k[7], c, n[0], n[1], n[2]] })

/-- 43 R150: GEN: the state for CTR in ST, its block in X and KS, CTR + 1 modulo 2^32. -/
def Obligations.GenMakesOneBlockAndAdvances : Prop :=
  EncodedOnlyAs 0x0A000000 .gen ∧ RaisesUninit .gen 0x0A000000 ∧
  (∀ (s : State) (k : Vector Word 8) (n : Vector Word 3) (c : Word), s.status = none → s.k = lift k → s.n = lift n →
    s.ctr = some c →
    exec .gen s = .next { s with
      st := lift (initWords k n c), x := lift (blockWords wordOps (initWords k n c)),
      ks := lift (blockWords wordOps (initWords k n c)), ctr := some (c + 1) })

/-- 43 R151, which the spec marks as derived by induction: the m-th GEN of a run, counting from 0, leaves the block for counter c + m modulo 2^32 in KS and CTR at
c + m + 1 modulo 2^32. -/
def Obligations.RunOfGensCountsUp : Prop :=
  ∀ (s : State) (k : Vector Word 8) (n : Vector Word 3) (c : Word) (m : Nat), s.status = none → s.k = lift k →
    s.n = lift n → s.ctr = some c →
    ∃ t : State, runCommands (List.replicate (m + 1) .gen) s = .next t ∧ t.status = none ∧
      t.ks = lift (blockWords wordOps (initWords k n (BitVec.ofNat 32 (c.toNat + m)))) ∧
      t.ctr = some (BitVec.ofNat 32 (c.toNat + m + 1))

/-! ### The 4-lane generator -/

/-- 44 R161: INIT4: lane l of VO is the state for counter c + l; each lane's counter wraps by itself; CTR is not
changed. -/
def Obligations.Init4BuildsFourStates : Prop :=
  EncodedOnlyAs 0x11000000 .init4 ∧ RaisesUninit .init4 0x11000000 ∧ IllegalWithoutLane4 .init4 0x11000000 ∧
  (∀ (s : State) (k : Vector Word 8) (n : Vector Word 3) (c : Word), s.status = none → s.hasLane4 = true →
    s.k = lift k → s.n = lift n → s.ctr = some c →
    ∃ o : Vector (Vector Word 4) 16, exec .init4 s = .next { s with vo := liftLanes o } ∧
      (∀ l : Lane, laneOf o l = initWords k n (c + BitVec.ofNat 32 l.val)) ∧
      o[12] = #v[c, c + 1, c + 2, c + 3])

/-- 44 R163: VLOAD. -/
def Obligations.VloadCopiesVoIntoV : Prop :=
  EncodedOnlyAs 0x12000000 .vload ∧ RaisesUninit .vload 0x12000000 ∧ IllegalWithoutLane4 .vload 0x12000000 ∧
  (∀ (s : State) (o : Vector (Vector Word 4) 16), s.status = none → s.hasLane4 = true → s.vo = liftLanes o →
    exec .vload s = .next { s with v := liftLanes o })

/-- 44 R165: VARX: ARX on every lane. -/
def Obligations.VarxIsArxOnEveryLane : Prop :=
  (∀ (a b d : Index) (r : Rot), decode (enc 0x13 a b 0 d r.code) = some (.varx a b d r) ∧
    RaisesUninit (.varx a b d r) (enc 0x13 a b 0 d r.code) ∧
    IllegalWithoutLane4 (.varx a b d r) (enc 0x13 a b 0 d r.code)) ∧
  (∀ w : Word, w.extractLsb' 24 8 = 0x13 → (w.extractLsb' 12 4 ≠ 0 ∨ w.extractLsb' 2 6 ≠ 0) → decode w = none) ∧
  (∀ (a b d : Index) (r : Rot) (s : State), Ready (.varx a b d r) s →
    ∃ y : Vector (Vector DataWord 4) 16, exec (.varx a b d r) s = .next { s with v := y } ∧
      ∀ l : Lane, ArxRule a b d r.amount (laneOf s.v l) (laneOf y l))

/-- 44 R167: VROTL: ROTL on every lane; 0 and FFFFFFFF are fixed points of each lane. -/
def Obligations.VrotlIsRotlOnEveryLane : Prop :=
  (∀ (a : Index) (r : Rot), decode (enc 0x14 a 0 0 0 r.code) = some (.vrotl a r) ∧
    RaisesUninit (.vrotl a r) (enc 0x14 a 0 0 0 r.code) ∧ IllegalWithoutLane4 (.vrotl a r) (enc 0x14 a 0 0 0 r.code)) ∧
  (∀ w : Word, w.extractLsb' 24 8 = 0x14 → w.extractLsb' 2 18 ≠ 0 → decode w = none) ∧
  (∀ (a : Index) (r : Rot) (s : State) (u : Vector Word 4), s.status = none → s.hasLane4 = true → s.v[a] = lift u →
    ∃ w : Vector Word 4, exec (.vrotl a r) s = .next { s with v := s.v.set a (lift w) } ∧
      ∀ l : Lane, w[l] = rotl32 u[l] r.amount ∧ (u[l] = 0 ∨ u[l] = 0xFFFFFFFF → w[l] = u[l]))

/-- 44 R169: VQR: the four lines of QR on every lane, for equal indices too; a lane of zeros stays zero. -/
def Obligations.VqrIsQrOnEveryLane : Prop :=
  (∀ a b c d : Index, decode (enc 0x15 a b c d 0) = some (.vqr a b c d) ∧
    RaisesUninit (.vqr a b c d) (enc 0x15 a b c d 0) ∧ IllegalWithoutLane4 (.vqr a b c d) (enc 0x15 a b c d 0)) ∧
  (∀ w : Word, w.extractLsb' 24 8 = 0x15 → w.extractLsb' 0 8 ≠ 0 → decode w = none) ∧
  (∀ (a b c d : Index) (s : State), Ready (.vqr a b c d) s →
    ∃ y : Vector (Vector DataWord 4) 16, exec (.vqr a b c d) s = .next { s with v := y } ∧
      (∀ l : Lane, QrLines a b c d (laneOf s.v l) (laneOf y l) ∧ QrRule a b c d (laneOf s.v l) (laneOf y l)) ∧
      (∀ i : Index, i ∉ [a, b, c, d] → y[i] = s.v[i]) ∧
      (∀ l : Lane, (∀ i ∈ [a, b, c, d], s.v[i][l] = some 0) → laneOf y l = laneOf s.v l))

/-- 44 R171: VDROUND: the double round on every lane, columns then diagonals. -/
def Obligations.VdroundIsDoubleRoundOnEveryLane : Prop :=
  EncodedOnlyAs 0x16000000 .vdround ∧ RaisesUninit .vdround 0x16000000 ∧ IllegalWithoutLane4 .vdround 0x16000000 ∧
  (∀ (s : State) (v : Vector (Vector Word 4) 16), s.status = none → s.hasLane4 = true → s.v = liftLanes v →
    ∃ y : Vector (Vector Word 4) 16, exec .vdround s = .next { s with v := liftLanes y } ∧
      ∀ l : Lane, laneOf y l = doubleRound wordOps (laneOf v l) ∧
        QrChain [(0, 4, 8, 12), (1, 5, 9, 13), (2, 6, 10, 14), (3, 7, 11, 15),
          (0, 5, 10, 15), (1, 6, 11, 12), (2, 7, 8, 13), (3, 4, 9, 14)] (lift (laneOf v l)) (lift (laneOf y l)))

/-- 44 R173: VFEEDFWD: VO as it stands is added to V, lane by lane. -/
def Obligations.VfeedfwdAddsVoToV : Prop :=
  EncodedOnlyAs 0x17000000 .vfeedfwd ∧ RaisesUninit .vfeedfwd 0x17000000 ∧ IllegalWithoutLane4 .vfeedfwd 0x17000000 ∧
  (∀ (s : State) (v o : Vector (Vector Word 4) 16), s.status = none → s.hasLane4 = true → s.v = liftLanes v →
    s.vo = liftLanes o →
    ∃ y : Vector (Vector Word 4) 16, exec .vfeedfwd s = .next { s with v := liftLanes y } ∧
      ∀ (w : Index) (l : Lane), y[w][l] = v[w][l] + o[w][l])

/-- 44 R175: VGATHER: word w of block l is lane l of lane vector w; V is unchanged. -/
def Obligations.VgatherDeinterleavesTheLanes : Prop :=
  EncodedOnlyAs 0x18000000 .vgather ∧ RaisesUninit .vgather 0x18000000 ∧ IllegalWithoutLane4 .vgather 0x18000000 ∧
  (∀ (s : State) (v : Vector (Vector Word 4) 16), s.status = none → s.hasLane4 = true → s.v = liftLanes v →
    ∃ z : Vector (Vector Word 16) 4, exec .vgather s = .next { s with ks4 := z.map lift } ∧
      (∀ (l : Lane) (w : Index), z[l][w] = v[w][l]) ∧
      ∀ (l : Lane) (t : State), t.hasLane4 = true → t.ks4 = z.map lift →
        readBlock (Reg.ks4 l) t = .ok (serialise z[l].toList))

/-- 44 R177: BLOCK4: the ten double rounds of every lane of VO with VO added back, left in V and gathered into KS4; VO is
unchanged. -/
def Obligations.Block4IsBlockOnEveryLane : Prop :=
  EncodedOnlyAs 0x19000000 .block4 ∧ RaisesUninit .block4 0x19000000 ∧ IllegalWithoutLane4 .block4 0x19000000 ∧
  (∀ (s : State) (o : Vector (Vector Word 4) 16), s.status = none → s.hasLane4 = true → s.vo = liftLanes o →
    ∃ (y : Vector (Vector Word 4) 16) (z : Vector (Vector Word 16) 4),
      exec .block4 s = .next { s with v := liftLanes y, ks4 := z.map lift } ∧
      ∀ (l : Lane) (w : Index), y[w][l] = (permutation wordOps (laneOf o l))[w] + o[w][l] ∧ z[l][w] = y[w][l])

/-- 44 R180: GEN4: VO as INIT4, V and KS4 as BLOCK4 of it, CTR + 4 modulo 2^32. -/
def Obligations.Gen4MakesFourBlocksAndAdvances : Prop :=
  EncodedOnlyAs 0x1A000000 .gen4 ∧ RaisesUninit .gen4 0x1A000000 ∧ IllegalWithoutLane4 .gen4 0x1A000000 ∧
  (∀ (s : State) (k : Vector Word 8) (n : Vector Word 3) (c : Word), s.status = none → s.hasLane4 = true →
    s.k = lift k → s.n = lift n → s.ctr = some c →
    ∃ (o y : Vector (Vector Word 4) 16) (z : Vector (Vector Word 16) 4),
      exec .gen4 s = .next { s with vo := liftLanes o, v := liftLanes y, ks4 := z.map lift, ctr := some (c + 4) } ∧
      (∀ l : Lane, laneOf o l = initWords k n (c + BitVec.ofNat 32 l.val)) ∧
      (∀ (l : Lane) (w : Index), y[w][l] = (permutation wordOps (laneOf o l))[w] + o[w][l] ∧ z[l][w] = y[w][l]) ∧
      runCommands [.init4, .block4] s = .next { s with vo := liftLanes o, v := liftLanes y, ks4 := z.map lift })

/-- 44 R160: lanes never interact: two states that agree in lane l of V and VO agree in lane l of V after the same
VLOAD, VARX, VROTL, VQR, VDROUND or VFEEDFWD. -/
def Obligations.LanesNeverInteract : Prop :=
  ∀ (i : Instr) (l : Lane) (s s' t t' : State),
    i ∈ [.vload, .vdround, .vfeedfwd] ∨ (∃ a b d r, i = .varx a b d r) ∨ (∃ a r, i = .vrotl a r) ∨
      (∃ a b c d, i = .vqr a b c d) →
    Ready i s → Ready i s' → laneOf s.v l = laneOf s'.v l → laneOf s.vo l = laneOf s'.vo l →
    exec i s = .next t → exec i s' = .next t' → laneOf t.v l = laneOf t'.v l

/-- 44 R182, which the spec marks as derived: cross-path equivalence: one GEN4 leaves in KS4[0..3] exactly what four GEN commands from the same K, N and
CTR leave in KS one after another, block l being the block for counter c + l modulo 2^32, and both end with CTR + 4. -/
def Obligations.Gen4EqualsFourGens : Prop :=
  ∀ (s : State) (k : Vector Word 8) (n : Vector Word 3) (c : Word), s.status = none → s.hasLane4 = true →
    s.k = lift k → s.n = lift n → s.ctr = some c →
    ∃ t t1 t2 t3 t4 : State, exec .gen4 s = .next t ∧ exec .gen s = .next t1 ∧ exec .gen t1 = .next t2 ∧
      exec .gen t2 = .next t3 ∧ exec .gen t3 = .next t4 ∧
      t.ks4 = #v[t1.ks, t2.ks, t3.ks, t4.ks] ∧
      (∀ l : Lane, t.ks4[l] = lift (blockWords wordOps (initWords k n (BitVec.ofNat 32 (c.toNat + l.val))))) ∧
      t.ctr = t4.ctr ∧ t.ctr = some (BitVec.ofNat 32 (c.toNat + 4))

/-! ### Composite commands and their steps -/

/-- The equalities the rules 40 R104, R106, R109, 41 R126 and 43 R150 mark as derived: four ROTL by 8 give the word back;
QR is its four ARX commands, DROUND its eight QR commands, BLOCK is XLOAD, ten DROUND, FEEDFWD, SERIAL, and GEN is INIT
then BLOCK and CTR + 1; the zero state is a fixed point of DROUND and its block is zero. -/
def Obligations.ScalarCommandsEqualTheirSteps : Prop :=
  (∀ (a : Index) (s : State), Ready (.rotl a .r8) s → runCommands (List.replicate 4 (.rotl a .r8)) s = .next s) ∧
  (∀ (a b c d : Index) (s : State), Ready (.qr a b c d) s → runCommands (qrAsArx a b c d) s = exec (.qr a b c d) s) ∧
  (∀ s : State, Ready .dround s → runCommands droundAsQr s = exec .dround s) ∧
  (∀ s : State, Ready .block s → runCommands blockAsSteps s = exec .block s) ∧
  (∀ (s : State) (c : Word), Ready .gen s → s.ctr = some c →
    ∃ t : State, runCommands [.init, .block] s = .next t ∧ exec .gen s = .next { t with ctr := some (c + 1) }) ∧
  doubleRound wordOps (Vector.replicate 16 0) = Vector.replicate 16 0 ∧
  blockWords wordOps (Vector.replicate 16 0) = Vector.replicate 16 0

/-- The same for lane vectors. 44 R171 and R177 mark as derived that VDROUND makes of lane l what DROUND makes of an X
holding it, that BLOCK4 is VLOAD, ten VDROUND, VFEEDFWD, VGATHER, and that KS4[l] then holds the block words of lane l of
VO; 44 R167 takes over for each lane what 40 R104 marks so, that four VROTL by 8 give the lanes back. That VQR is its four
VARX commands is the model's own deduction (log entry 13) from 44 R165, R169 and the scalar sentence of 40 R106; 44 R169
marks no such equality. -/
def Obligations.LaneCommandsEqualTheirSteps : Prop :=
  (∀ (a : Index) (s : State), Ready (.vrotl a .r8) s → runCommands (List.replicate 4 (.vrotl a .r8)) s = .next s) ∧
  (∀ (a b c d : Index) (s : State), Ready (.vqr a b c d) s →
    runCommands (vqrAsVarx a b c d) s = exec (.vqr a b c d) s) ∧
  (∀ (s t u t' : State) (l : Lane), Ready .vdround s → u.status = none → u.x = laneOf s.v l →
    exec .vdround s = .next t → exec .dround u = .next t' → t'.x = laneOf t.v l) ∧
  (∀ s : State, Ready .block4 s → runCommands block4AsSteps s = exec .block4 s) ∧
  (∀ (s : State) (o : Vector (Vector Word 4) 16), s.status = none → s.hasLane4 = true → s.vo = liftLanes o →
    ∃ t : State, exec .block4 s = .next t ∧ ∀ l : Lane, t.ks4[l] = lift (blockWords wordOps (laneOf o l)))

/-! ### The host procedures -/

/-- 46 R201, R202, R203: from any state with no fault ScalarPath writes exactly the input's exclusive or with the
keystream, one counter value per 64 bytes or part of them, and ends with no fault; a zero length does nothing. -/
def Obligations.ScalarPathXorsTheKeystream : Prop :=
  (∀ (key : Vector Byte 32) (nonce : Vector Byte 12) (c : Word) (s : State),
    scalarPath key nonce c [] s = .ok ([], s)) ∧
  (∀ (key : Vector Byte 32) (nonce : Vector Byte 12) (c : Word) (inp : Bytes) (s : State), s.status = none →
    inp ≠ [] →
    ∃ t : State, scalarPath key nonce c inp s =
        .ok (inp.mapIdx (fun i b => b ^^^ keystreamByte key nonce c i), t) ∧
      t.status = none ∧ t.ctr = some (c + BitVec.ofNat 32 ((inp.length + 63) / 64)))

/-- 46 R206, R207, R210: all three paths and the Dispatcher write the input's exclusive or with the keystream for every
length and leave the same CTR, the vectorized one where CAP.LANE4 = 1, which the Dispatcher then takes; a zero length
does nothing, and none makes the core raise a fault. -/
def Obligations.AllPathsWriteTheSameBytes : Prop :=
  ∀ (key : Vector Byte 32) (nonce : Vector Byte 12) (c : Word) (inp : Bytes) (s : State), s.status = none →
    ∃ t u v : State,
      scalarPath key nonce c inp s = .ok (inp.mapIdx (fun i b => b ^^^ keystreamByte key nonce c i), t) ∧
      interleaved4Path key nonce c inp s = .ok (inp.mapIdx (fun i b => b ^^^ keystreamByte key nonce c i), u) ∧
      dispatch key nonce c inp s = .ok (inp.mapIdx (fun i b => b ^^^ keystreamByte key nonce c i), v) ∧
      (s.hasLane4 = true → vectorized4Path key nonce c inp s = dispatch key nonce c inp s) ∧
      (s.hasLane4 = false → v = u) ∧ (inp = [] → t = s ∧ u = s ∧ v = s) ∧
      (inp ≠ [] → t.ctr = some (c + BitVec.ofNat 32 ((inp.length + 63) / 64)) ∧ u.ctr = t.ctr ∧ v.ctr = t.ctr) ∧
      t.status = none ∧ u.status = none ∧ v.status = none

/-- 46 R208, R209: transform in place is its own inverse, also across cores, and a partial overlap is refused. -/
def Obligations.TransformUndoesItself : Prop :=
  (∀ (key : Vector Byte 32) (nonce : Vector Byte 12) (c : Word) (mem : Bytes) (p len : Nat) (s u : State),
    s.status = none → u.status = none → p + len ≤ mem.length →
    ∃ (mid : Bytes) (t v : State), transform mem p p len key nonce c s = .ok (mid, t) ∧
      transform mid p p len key nonce c u = .ok (mem, v)) ∧
  (∀ (key : Vector Byte 32) (nonce : Vector Byte 12) (c : Word) (mem : Bytes) (o p len : Nat) (s : State),
    o < p → p < o + len → transform mem o p len key nonce c s = .error .partialOverlap ∧
      transform mem p o len key nonce c s = .error .partialOverlap)
end

