-- ==== Sys2Proof/Laws/State.lean ====
section
/-! SUPPORT. The small lemmas of the state's updates: what each leaves and what it sets. -/

namespace Sys2Proof.Machine

/-! ### Vectors -/

@[simp] theorem tab_get {α : Type} {n : Nat} (f : Fin n → α) (i : Nat) (h : i < n) : (tab f)[i] = f ⟨i, h⟩ := by
  simp [tab]

theorem tab_getElem_self {α : Type} {n : Nat} (v : Vector α n) : tab (fun i : Fin n => v[i]) = v := by
  ext i hi
  simp

theorem vector_map_set {α β : Type} {n : Nat} (f : α → β) (v : Vector α n) (i : Fin n) (a : α) :
    (v.set i a).map f = (v.map f).set i (f a) := by
  ext j hj
  simp only [Vector.getElem_map, Vector.getElem_set]
  split <;> rfl

/-! ### Reset -/

/-- After reset no data word holds a value (10 R41). -/
@[simp] theorem rd_resetWith (b : Bool) (r : Reg) : (State.resetWith b).rd r = none := by
  cases r <;> simp [State.resetWith, State.rd]

@[simp] theorem rd_resetCore (s : State) (r : Reg) : s.resetCore.rd r = none := by
  have h := rd_resetWith s.hasLane4 r
  cases r <;> exact h

@[simp] theorem resetCore_hasLane4 (s : State) : s.resetCore.hasLane4 = s.hasLane4 := rfl
@[simp] theorem resetCore_status (s : State) : s.resetCore.status = none := rfl
@[simp] theorem resetCore_finfo (s : State) : s.resetCore.finfo = 0 := rfl
@[simp] theorem resetCore_pending (s : State) : s.resetCore.pending = s.pending := rfl
@[simp] theorem resetCore_responses (s : State) : s.resetCore.responses = s.responses := rfl

/-! ### Reading and writing registers -/

/-- A read after a write of the same register gives the value written (10 R22). -/
@[simp] theorem rd_wr_same (s : State) (r : Reg) (v : Word) : (s.wr r v).rd r = some v := by
  cases r <;> simp [State.wr, State.rd]

/-- A write leaves every other register alone (10 R32). -/
theorem rd_wr_ne (s : State) (r r' : Reg) (v : Word) (h : r' ≠ r) : (s.wr r v).rd r' = s.rd r' := by
  cases r <;> cases r' <;>
    simp_all [State.wr, State.rd, Vector.getElem_set, Fin.ext_iff] <;> grind

@[simp] theorem wr_hasLane4 (s : State) (r : Reg) (v : Word) : (s.wr r v).hasLane4 = s.hasLane4 := by cases r <;> rfl
@[simp] theorem wr_status (s : State) (r : Reg) (v : Word) : (s.wr r v).status = s.status := by cases r <;> rfl
@[simp] theorem wr_finfo (s : State) (r : Reg) (v : Word) : (s.wr r v).finfo = s.finfo := by cases r <;> rfl
@[simp] theorem wr_pending (s : State) (r : Reg) (v : Word) : (s.wr r v).pending = s.pending := by cases r <;> rfl
@[simp] theorem wr_responses (s : State) (r : Reg) (v : Word) : (s.wr r v).responses = s.responses := by
  cases r <;> rfl

/-- The host's side of the bus holds no register (10 R20). -/
@[simp] theorem rd_with_pending (s : State) (p : List HostAction) (r : Reg) :
    ({ s with pending := p } : State).rd r = s.rd r := by cases r <;> rfl

@[simp] theorem rd_with_responses (s : State) (p : List Response) (r : Reg) :
    ({ s with responses := p } : State).rd r = s.rd r := by cases r <;> rfl

@[simp] theorem rd_with_fault (s : State) (c : Option Cause) (w : Word) (r : Reg) :
    ({ s with status := c, finfo := w } : State).rd r = s.rd r := by cases r <;> rfl

/-! ### Taking a fault -/

/-- All that `raise` can do (60 R223). -/
theorem raise_cases (s : State) (e : Cause) (info : Word) :
    (s.faulted = true ∧ s.raise e info = s) ∨
      (s.faulted = false ∧ s.raise e info = { s with status := some e, finfo := info }) := by
  unfold State.raise
  cases h : s.faulted <;> simp

@[simp] theorem raise_hasLane4 (s : State) (e : Cause) (w : Word) : (s.raise e w).hasLane4 = s.hasLane4 := by
  unfold State.raise; split <;> rfl
@[simp] theorem raise_pending (s : State) (e : Cause) (w : Word) : (s.raise e w).pending = s.pending := by
  unfold State.raise; split <;> rfl
@[simp] theorem raise_responses (s : State) (e : Cause) (w : Word) : (s.raise e w).responses = s.responses := by
  unfold State.raise; split <;> rfl

/-- A fault changes no data register (60 R221, R230). -/
@[simp] theorem rd_raise (s : State) (e : Cause) (w : Word) (r : Reg) : (s.raise e w).rd r = s.rd r := by
  unfold State.raise; split
  · rfl
  · exact rd_with_fault s _ _ r

theorem raise_of_status_none (s : State) (e : Cause) (w : Word) (h : s.status = none) :
    s.raise e w = { s with status := some e, finfo := w } := by
  simp [State.raise, State.faulted, h]

theorem raise_of_faulted (s : State) (e : Cause) (w : Word) (h : s.status ≠ none) : s.raise e w = s := by
  have hf : s.faulted = true := by
    unfold State.faulted
    cases hs : s.status with
    | none => exact absurd hs h
    | some c => rfl
  simp [State.raise, hf]

end Sys2Proof.Machine
end

