-- ==== Sys2Proof/Laws/ChaCha.lean ====
section
/-! SUPPORT. The functions of the datapath commute with every map that respects the three word operations. Two such
maps carry every comparison of the model: `some`, from words to valid data words, and the projection on a lane. -/

namespace Sys2Proof.Machine

variable {α β : Type}

/-- `f` respects the three operations of 00 R12. -/
structure Respects (o : WordOps α) (p : WordOps β) (f : α → β) : Prop where
  add  : ∀ a b, f (o.add a b) = p.add (f a) (f b)
  xor  : ∀ a b, f (o.xor a b) = p.xor (f a) (f b)
  rotl : ∀ a n, f (o.rotl a n) = p.rotl (f a) n

/-- On valid words the data operations are the word operations. -/
theorem some_respects : Respects wordOps dataOps (some : Word → DataWord) :=
  ⟨fun _ _ => rfl, fun _ _ => rfl, fun _ _ => rfl⟩

/-- Lanes never interact (44 R160). -/
theorem lane_respects (o : WordOps α) (l : Lane) : Respects (laneOps o) o (fun v : Vector α 4 => v[l]) :=
  ⟨fun _ _ => by simp [laneOps], fun _ _ => by simp [laneOps], fun _ _ => by simp [laneOps]⟩

variable {o : WordOps α} {p : WordOps β} {f : α → β}

theorem map_get (f : α → β) (x : Vector α 16) (i : Index) : (x.map f)[i] = f x[i] := by simp

theorem arxStep_map (h : Respects o p f) (x : Vector α 16) (a b d : Index) (n : Nat) :
    (arxStep o x a b d n).map f = arxStep p (x.map f) a b d n := by
  simp only [arxStep, vector_map_set, h.add, h.xor, h.rotl, ← map_get f]

theorem rotlStep_map (h : Respects o p f) (x : Vector α 16) (a : Index) (n : Nat) :
    (rotlStep o x a n).map f = rotlStep p (x.map f) a n := by
  simp only [rotlStep, vector_map_set, h.rotl, ← map_get f]

theorem quarterRound_map (h : Respects o p f) (x : Vector α 16) (a b c d : Index) :
    (quarterRound o x a b c d).map f = quarterRound p (x.map f) a b c d := by
  simp only [quarterRound, arxStep_map h]

theorem pass_map (h : Respects o p f) (qs : List (Index × Index × Index × Index)) (x : Vector α 16) :
    (pass o x qs).map f = pass p (x.map f) qs := by
  induction qs generalizing x with
  | nil => rfl
  | cons q qs ih => simpa only [pass, List.foldl_cons, quarterRound_map h] using ih (quarterRound o x _ _ _ _)

theorem doubleRound_map (h : Respects o p f) (x : Vector α 16) :
    (doubleRound o x).map f = doubleRound p (x.map f) := by
  simp only [doubleRound, pass_map h]

theorem doubleRounds_map (h : Respects o p f) (n : Nat) (x : Vector α 16) :
    (doubleRounds o n x).map f = doubleRounds p n (x.map f) := by
  induction n generalizing x with
  | zero => rfl
  | succ n ih => simp only [doubleRounds, ih, doubleRound_map h]

theorem feedForward_map (h : Respects o p f) (s x : Vector α 16) :
    (feedForward o s x).map f = feedForward p (s.map f) (x.map f) := by
  ext i hi
  simp [feedForward, h.add]

theorem blockWords_map (h : Respects o p f) (s : Vector α 16) :
    (blockWords o s).map f = blockWords p (s.map f) := by
  simp only [blockWords, feedForward_map h, permutation, doubleRounds_map h]

end Sys2Proof.Machine
end

