-- ==== Sys2Proof/Laws/Ops.lean ====
section
/-! SUPPORT. All that the checks of a command, the bus and a step can do, said once. -/

namespace Sys2Proof.Machine

/-- All that `issue` can answer, in the order of 30 R80: discarded, ILLEGAL_CMD, the effect, UNINIT_OPERAND. -/
theorem issue_cases (i : Instr) (reads : List Reg) (effect : State → State) (s : State) :
    (s.status ≠ none ∧ issue i reads effect s = .next s) ∨
    (s.status = none ∧ i.WellFormed s.hasLane4 = false ∧
      issue i reads effect s = .next { s with status := some .illegalCmd, finfo := encode i }) ∨
    (s.status = none ∧ i.WellFormed s.hasLane4 = true ∧ (∀ r ∈ reads, s.rd r ≠ none) ∧
      issue i reads effect s = .next (effect s)) ∨
    (s.status = none ∧ i.WellFormed s.hasLane4 = true ∧ (∃ r ∈ reads, s.rd r = none) ∧
      issue i reads effect s = .next { s with status := some .uninitOperand, finfo := encode i }) := by
  cases hs : s.status with
  | some c => exact .inl ⟨by simp, by simp [issue, State.faulted, hs]⟩
  | none =>
    have hf : s.faulted = false := by simp [State.faulted, hs]
    cases hw : i.WellFormed s.hasLane4 with
    | false => exact .inr (.inl ⟨rfl, rfl, by simp [issue, hf, hw, raise_of_status_none s _ _ hs]⟩)
    | true =>
      by_cases hv : reads.all s.valid = true
      · refine .inr (.inr (.inl ⟨rfl, rfl, fun r hr h => ?_, by simp only [issue, hf, hw, hv]; rfl⟩))
        have := List.all_eq_true.mp hv r hr
        simp [State.valid, h] at this
      · refine .inr (.inr (.inr ⟨rfl, rfl, ?_, by
          simp [issue, hf, hw, Bool.eq_false_iff.mpr hv, raise_of_status_none s _ _ hs]⟩))
        obtain ⟨r, hr, h⟩ : ∃ r ∈ reads, s.valid r = false := by simpa using hv
        exact ⟨r, hr, by simpa [State.valid] using h⟩

/-- A command with no recorded fault, on a build that has it, with its whole read set valid, has its effect (30 R80). -/
theorem issue_effect (i : Instr) (reads : List Reg) (effect : State → State) (s : State) (hs : s.status = none)
    (hw : i.WellFormed s.hasLane4 = true) (hv : ∀ r ∈ reads, s.rd r ≠ none) :
    issue i reads effect s = .next (effect s) := by
  rcases issue_cases i reads effect s with h | h | h | h
  · exact absurd hs h.1
  · exact absurd (hw.symm.trans h.2.1) (by simp)
  · exact h.2.2.2
  · obtain ⟨r, hr, h0⟩ := h.2.2.1
    exact absurd h0 (hv r hr)

/-- All that a CMD write of one word can answer (30 R80; 60 R231). -/
theorem command_cases (c : Word) (s : State) :
    (s.status ≠ none ∧ command c s = .next s) ∨
    (s.status = none ∧ decode c = none ∧
      command c s = .next { s with status := some .illegalCmd, finfo := c }) ∨
    (∃ i, s.status = none ∧ decode c = some i ∧ command c s = exec i s) := by
  cases hs : s.status with
  | some k => exact .inl ⟨by simp, by simp [command, State.faulted, hs]⟩
  | none =>
    have hf : s.faulted = false := by simp [State.faulted, hs]
    cases hd : decode c with
    | none => exact .inr (.inl ⟨rfl, rfl, by simp [command, hf, hd, raise_of_status_none s _ _ hs]⟩)
    | some i => exact .inr (.inr ⟨i, rfl, rfl, by simp [command, hf, hd]⟩)

/-- All that a bus read can do: answer data and leave the core as it was, or raise and answer an error (20 R55). -/
theorem memRead_cases (off : Offset) (size : Nat) (s : State) :
    (∃ w, memRead off size s = (s, .data w)) ∨
    ((target s off size = none ∨ target s off size = some .cmd) ∧
      memRead off size s = (s.raise .busError (accessInfo false off), .busErrorResponse)) ∨
    (∃ r, target s off size = some (.data r) ∧ s.rd r = none ∧
      memRead off size s = (s.raise .uninitRead (accessInfo false off), .busErrorResponse)) := by
  unfold memRead
  split
  · next h => exact .inr (.inl ⟨.inl h, rfl⟩)
  · next h => exact .inr (.inl ⟨.inr h, rfl⟩)
  · exact .inl ⟨_, rfl⟩
  · exact .inl ⟨_, rfl⟩
  · exact .inl ⟨_, rfl⟩
  · next r h =>
    cases hr : s.rd r with
    | some w => exact .inl ⟨w, rfl⟩
    | none => exact .inr (.inr ⟨r, h, hr, rfl⟩)

/-- All that a bus write can do: present a command, store a data word, or raise BUS_ERROR (20 R56). -/
theorem memWrite_cases (off : Offset) (size : Nat) (v : Word) (s : State) :
    (target s off size = some .cmd ∧ memWrite off size v s = command v s) ∨
    (∃ r, target s off size = some (.data r) ∧ (BusReg.data r).readOnly = false ∧
      memWrite off size v s = .next (s.wr r v)) ∨
    ((∀ b, target s off size = some b → b.readOnly = true) ∧
      memWrite off size v s = .next (s.raise .busError (accessInfo true off))) := by
  unfold memWrite
  split
  · next h => exact .inl ⟨h, rfl⟩
  · next r h =>
    cases hr : (BusReg.data r).readOnly with
    | false => exact .inr (.inl ⟨r, h, hr, by simp⟩)
    | true => exact .inr (.inr ⟨fun b hb => (Option.some.inj (h.symm.trans hb)) ▸ hr, by simp⟩)
  · next h => exact .inr (.inr ⟨fun b hb => by simp [h] at hb, rfl⟩)
  · next h => exact .inr (.inr ⟨fun b hb => (Option.some.inj (h.symm.trans hb)) ▸ rfl, rfl⟩)
  · next h => exact .inr (.inr ⟨fun b hb => (Option.some.inj (h.symm.trans hb)) ▸ rfl, rfl⟩)
  · next h => exact .inr (.inr ⟨fun b hb => (Option.some.inj (h.symm.trans hb)) ▸ rfl, rfl⟩)

/-- All that a step can do: nothing to do, a read, a write, or reset (20 R63; 70 R250). -/
theorem step_cases (s : State) :
    (s.pending = [] ∧ step s = .next s) ∨
    (∃ off size rest, s.pending = .read off size :: rest ∧
      step s = .next { (memRead off size { s with pending := rest }).1 with
        responses := (memRead off size { s with pending := rest }).1.responses
          ++ [(memRead off size { s with pending := rest }).2] }) ∨
    (∃ off size v rest, s.pending = .write off size v :: rest ∧
      step s = memWrite off size v { s with pending := rest }) ∨
    (∃ rest, s.pending = .reset :: rest ∧ step s = .next { s with pending := rest }.resetCore) := by
  unfold step hostTurn
  split
  · next h => exact .inl ⟨h, rfl⟩
  · next a rest h =>
    cases a with
    | read off size => exact .inr (.inl ⟨off, size, rest, h, rfl⟩)
    | write off size v => exact .inr (.inr (.inl ⟨off, size, v, rest, h, rfl⟩))
    | reset => exact .inr (.inr (.inr ⟨rest, h, rfl⟩))

end Sys2Proof.Machine
end

