-- ==== Sys2Proof/Laws/Exec.lean ====
section
/-! SUPPORT. Every command is `issue` of its read set and its effect: the one way into `exec` for proofs. -/

namespace Sys2Proof.Machine

/-- The read set each meaning checks. -/
def readList : Instr → List Reg
  | .init | .gen | .init4 | .gen4 => keyWords
  | .xload | .block => stWords
  | .arx a b d _ => [.x a, .x b, .x d]
  | .rotl a _ => [.x a]
  | .qr a b c d => [.x a, .x b, .x c, .x d]
  | .dround | .serial => xWords
  | .feedfwd => xWords ++ stWords
  | .vload | .block4 => voWords
  | .varx a b d _ => laneWords a ++ laneWords b ++ laneWords d
  | .vrotl a _ => laneWords a
  | .vqr a b c d => laneWords a ++ laneWords b ++ laneWords c ++ laneWords d
  | .vdround | .vgather => vWords
  | .vfeedfwd => vWords ++ voWords

/-- The effect each meaning has once its checks are passed. -/
def effect (i : Instr) (s : State) : State :=
  match i with
  | .init => initEffect s
  | .xload => { s with x := s.st }
  | .arx a b d r => { s with x := arxStep dataOps s.x a b d r.amount }
  | .rotl a r => { s with x := rotlStep dataOps s.x a r.amount }
  | .qr a b c d => { s with x := quarterRound dataOps s.x a b c d }
  | .dround => { s with x := doubleRound dataOps s.x }
  | .feedfwd => { s with x := feedForward dataOps s.st s.x }
  | .serial => { s with ks := s.x }
  | .block => blockEffect s
  | .gen => advanceCtr 1 (blockEffect (initEffect s))
  | .init4 => init4Effect s
  | .vload => { s with v := s.vo }
  | .varx a b d r => { s with v := arxStep vecOps s.v a b d r.amount }
  | .vrotl a r => { s with v := rotlStep vecOps s.v a r.amount }
  | .vqr a b c d => { s with v := quarterRound vecOps s.v a b c d }
  | .vdround => { s with v := doubleRound vecOps s.v }
  | .vfeedfwd => { s with v := feedForward vecOps s.vo s.v }
  | .vgather => { s with ks4 := gather s.v }
  | .block4 => block4Effect s
  | .gen4 => advanceCtr 4 (block4Effect (init4Effect s))

theorem exec_eq_issue (i : Instr) (s : State) : exec i s = issue i (readList i) (effect i) s := by
  cases i <;> rfl

theorem mem_keyWords (r : Reg) : r ∈ keyWords ↔ fileOf r = .k ∨ fileOf r = .n ∨ fileOf r = .ctr := by
  cases r <;> simp only [keyWords, fileOf, List.mem_append, List.mem_map, List.mem_finRange, List.mem_singleton] <;> simp

theorem mem_stWords (r : Reg) : r ∈ stWords ↔ fileOf r = .st := by
  cases r <;> simp only [stWords, fileOf, List.mem_map, List.mem_finRange] <;> simp

theorem mem_xWords (r : Reg) : r ∈ xWords ↔ fileOf r = .x := by
  cases r <;> simp only [xWords, fileOf, List.mem_map, List.mem_finRange] <;> simp

theorem mem_laneWords (w : Index) (r : Reg) : r ∈ laneWords w ↔ ∃ l, r = .v w l := by
  simp only [laneWords, List.mem_map, List.mem_finRange, true_and, eq_comm]

theorem mem_vWords (r : Reg) : r ∈ vWords ↔ fileOf r = .v := by
  simp only [vWords, List.mem_flatMap, List.mem_finRange, mem_laneWords, true_and]
  cases r <;> simp [fileOf]

theorem mem_voWords (r : Reg) : r ∈ voWords ↔ fileOf r = .vo := by
  simp only [voWords, List.mem_flatMap, List.mem_finRange, List.mem_map, true_and]
  cases r <;> simp [fileOf]

/-- The read set a meaning checks is the one of the spec's table (10 R21). -/
theorem mem_readList (i : Instr) (r : Reg) : r ∈ readList i ↔ inReadSet i r = true := by
  cases i <;>
    simp only [readList, inReadSet, mem_keyWords, mem_stWords, mem_xWords, mem_vWords, mem_voWords, mem_laneWords,
      List.mem_append, Bool.or_eq_true, beq_iff_eq, or_assoc] <;>
    cases r <;> simp [isXOf, isVOf]

/-- All that a command can answer, in the order of its checks (30 R80; 60 R232). -/
theorem exec_cases (i : Instr) (s : State) :
    (s.status ≠ none ∧ exec i s = .next s) ∨
    (s.status = none ∧ i.WellFormed s.hasLane4 = false ∧
      exec i s = .next { s with status := some .illegalCmd, finfo := encode i }) ∨
    (Ready i s ∧ exec i s = .next (effect i s)) ∨
    (s.status = none ∧ i.WellFormed s.hasLane4 = true ∧ (∃ r, inReadSet i r = true ∧ s.rd r = none) ∧
      exec i s = .next { s with status := some .uninitOperand, finfo := encode i }) := by
  rw [exec_eq_issue]
  rcases issue_cases i (readList i) (effect i) s with h | h | ⟨h1, h2, h3, h4⟩ | ⟨h1, h2, ⟨r, hr, h3⟩, h4⟩
  · exact .inl h
  · exact .inr (.inl h)
  · exact .inr (.inr (.inl ⟨⟨h1, h2, fun r hr => h3 r ((mem_readList i r).mpr hr)⟩, h4⟩))
  · exact .inr (.inr (.inr ⟨h1, h2, ⟨r, (mem_readList i r).mp hr, h3⟩, h4⟩))

/-- A command that is ready has its effect (30 R80). -/
theorem exec_of_ready (i : Instr) (s : State) (h : Ready i s) : exec i s = .next (effect i s) := by
  rw [exec_eq_issue]
  exact issue_effect _ _ _ _ h.1 h.2.1 fun r hr => h.2.2 r ((mem_readList i r).mp hr)

end Sys2Proof.Machine
end

