-- ==== Sys2Proof/Laws/Bus.lean ====
section
/-! SUPPORT. Where a bus access goes (spec 20 R51), and a CMD write as the command it presents. -/

namespace Sys2Proof.Machine

/-- A legal access reaches the register mapped at its offset (20 R52, R53). -/
theorem target_of_legal (s : State) (off : Offset) (h : off.extractLsb' 0 2 = 0) :
    target s off 4 = regAt s.hasLane4 off := by
  unfold target
  rw [if_neg (by simpa [Config.accessBytes] using h)]

/-- A register's offset is aligned (20 R51). -/
theorem offset_aligned (r : Reg) : (BusReg.data r).offset.extractLsb' 0 2 = 0 := by
  cases r with
  | k j => revert j; decide
  | n j => revert j; decide
  | ctr => decide
  | st j => revert j; decide
  | x j => revert j; decide
  | ks j => revert j; decide
  | v w l => revert w l; decide
  | vo w l => revert w l; decide
  | ks4 l j => revert l j; decide

theorem regAt_offset_scalar (b : Bool) (r : Reg) (h : r.isLane = false) :
    regAt b (BusReg.data r).offset = some (.data r) := by
  cases r with
  | k j => revert b j; decide
  | n j => revert b j; decide
  | ctr => revert b; decide
  | st j => revert b j; decide
  | x j => revert b j; decide
  | ks j => revert b j; decide
  | v w l => cases h
  | vo w l => cases h
  | ks4 l j => cases h

theorem regAt_offset_lane (r : Reg) (h : r.isLane = true) :
    regAt true (BusReg.data r).offset = some (.data r) := by
  cases r with
  | v w l => revert w l; decide
  | vo w l => revert w l; decide
  | ks4 l j => revert l j; decide
  | k j => cases h
  | n j => cases h
  | ctr => cases h
  | st j => cases h
  | x j => cases h
  | ks j => cases h

/-- Without the 4-lane generator its registers are not mapped (20 R51, R54). -/
theorem regAt_offset_absent (r : Reg) (h : r.isLane = true) : regAt false (BusReg.data r).offset = none := by
  cases r with
  | v w l => revert w l; decide
  | vo w l => revert w l; decide
  | ks4 l j => revert l j; decide
  | k j => cases h
  | n j => cases h
  | ctr => cases h
  | st j => cases h
  | x j => cases h
  | ks j => cases h

/-- The map is one to one: the register mapped at an aligned offset has that offset (20 R51). -/
theorem offset_of_regAt (b : Bool) (off : Offset) (r : BusReg) (ha : off.extractLsb' 0 2 = 0)
    (h : regAt b off = some r) : off = r.offset := by
  have hs : ∀ q : Nat, scalarRegAt q = some r → r.offset = BitVec.ofNat 12 (4 * q) := by
    intro q hq
    unfold scalarRegAt at hq
    split_ifs at hq <;> cases hq <;> (try subst_vars) <;>
      first
      | rfl
      | (simp only [BusReg.offset]; refine congrArg (BitVec.ofNat 12) ?_; omega)
  have hl : ∀ q : Nat, laneRegAt q = some r → r.offset = BitVec.ofNat 12 (4 * q) := by
    intro q hq
    unfold laneRegAt at hq
    split_ifs at hq <;> cases hq <;> simp only [BusReg.offset] <;> refine congrArg (BitVec.ofNat 12) ?_ <;> omega
  have h4 : off.toNat % 4 = 0 := by simpa using congrArg BitVec.toNat ha
  have e : BitVec.ofNat 12 (4 * (off.toNat / 4)) = off := by
    have := off.isLt
    apply BitVec.eq_of_toNat_eq
    simp
    omega
  unfold regAt at h
  dsimp only at h
  split_ifs at h
  · rw [hs _ h, e]
  · rw [hl _ h, e]

/-- A legal target is an access of one word at an aligned mapped offset (20 R52, R53, R54). -/
theorem legal_of_target (s : State) (off : Offset) (n : Nat) (b : BusReg) (h : target s off n = some b) :
    n = 4 ∧ off.extractLsb' 0 2 = 0 ∧ regAt s.hasLane4 off = some b := by
  unfold target at h
  split_ifs at h with hc
  simp [Config.accessBytes] at hc
  exact ⟨hc.1, hc.2, h⟩

/-- An access at a present register's offset reaches that register (20 R51). -/
theorem target_reg (s : State) (r : Reg) (h : Present s r) :
    target s (BusReg.data r).offset 4 = some (.data r) := by
  rw [target_of_legal s _ (offset_aligned r)]
  cases hl : r.isLane with
  | false => exact regAt_offset_scalar _ r hl
  | true => rw [h hl]; exact regAt_offset_lane r hl

theorem target_cmd (s : State) : target s 0x008 4 = some .cmd := by
  rw [target_of_legal s _ (by decide)]
  cases s.hasLane4 <;> decide

/-- A legal write at the offset of CMD presents its word (10 R38; 20 R56). -/
theorem memWrite_cmd (s : State) (w : Word) : memWrite 0x008 4 w s = command w s := by
  unfold memWrite
  rw [target_cmd]

/-- The word of a command, presented to CMD, is that command in every state: while FAULT = 1 both are discarded
(30 R80; 60 R231). -/
theorem command_of_decode (s : State) (w : Word) (i : Instr) (h : decode w = some i) : command w s = exec i s := by
  rcases command_cases w s with ⟨h1, h2⟩ | ⟨_, h1, _⟩ | ⟨j, _, h1, h2⟩
  · rcases exec_cases i s with ⟨_, h3⟩ | ⟨h3, _⟩ | ⟨h3, _⟩ | ⟨h3, _⟩
    · rw [h2, h3]
    · exact absurd h3 h1
    · exact absurd h3.1 h1
    · exact absurd h3 h1
  · rw [h] at h1; cases h1
  · rw [h] at h1; cases h1; exact h2

/-- What `raise` leads to, as the spec says it (60 R223). -/
theorem records_raise (s : State) (e : Cause) (info : Word) : Records s e info (s.raise e info) := by
  cases h : s.status with
  | none => exact .inl ⟨h, raise_of_status_none _ _ _ h⟩
  | some c => exact .inr ⟨by simp [h], raise_of_faulted _ _ _ (by simp [h])⟩

theorem accessInfo_read (off : Offset) : accessInfo false off = off.setWidth 32 := by simp [accessInfo]

theorem accessInfo_write (off : Offset) : accessInfo true off = 0x80000000 ||| off.setWidth 32 := by
  simp [accessInfo]

/-- All that a step but a reset can do: write one present register, run one command, or leave every register as it was
and at most record a fault (20 R55, R56; 30 R80; 60 R223). -/
theorem step_effects (s t : State) (hn : NoReset s) (h : step s = .next t) :
    (∃ (r : Reg) (v : Word) (rest : List HostAction), s.pending = .write (BusReg.data r).offset 4 v :: rest ∧
      Present s r ∧ (BusReg.data r).readOnly = false ∧ t = ({ s with pending := rest } : State).wr r v) ∨
    (∃ (w : Word) (i : Instr) (rest : List HostAction), s.pending = .write 0x008 4 w :: rest ∧ decode w = some i ∧
      exec i { s with pending := rest } = .next t) ∨
    (t.hasLane4 = s.hasLane4 ∧ (∀ r, t.rd r = s.rd r) ∧
      ((t.status = s.status ∧ t.finfo = s.finfo) ∨ (s.status = none ∧ t.status ≠ none))) := by
  have raised : ∀ (rest : List HostAction) (e : Cause) (info : Word),
      ((({ s with pending := rest } : State).raise e info).status = s.status ∧
        (({ s with pending := rest } : State).raise e info).finfo = s.finfo) ∨
      (s.status = none ∧ (({ s with pending := rest } : State).raise e info).status ≠ none) := by
    intro rest e info
    rcases raise_cases { s with pending := rest } e info with ⟨_, h⟩ | ⟨hf, h⟩
    · rw [h]; exact .inl ⟨rfl, rfl⟩
    · rw [h]; exact .inr ⟨by simpa [State.faulted] using hf, by simp⟩
  have read : ∀ (rest : List HostAction) (e : Cause) (info : Word) (q : List Response) (r : Reg),
      ({ ({ s with pending := rest } : State).raise e info with responses := q } : State).rd r = s.rd r :=
    fun rest e info q r => (rd_with_responses _ _ r).trans ((rd_raise _ _ _ r).trans (rd_with_pending s rest r))
  rcases step_cases s with ⟨_, h1⟩ | ⟨off, n, rest, hp, h1⟩ | ⟨off, n, v, rest, hp, h1⟩ | ⟨rest, hp, _⟩
  · rw [h1] at h; cases h
    exact .inr (.inr ⟨rfl, fun _ => rfl, .inl ⟨rfl, rfl⟩⟩)
  · rw [h1] at h; cases h
    refine .inr (.inr ?_)
    rcases memRead_cases off n { s with pending := rest } with ⟨w, h⟩ | ⟨_, h⟩ | ⟨r, _, _, h⟩ <;> rw [h]
    · exact ⟨rfl, fun r => (rd_with_responses _ _ r).trans (rd_with_pending s rest r), .inl ⟨rfl, rfl⟩⟩
    · exact ⟨raise_hasLane4 _ _ _, read _ _ _ _, raised _ _ _⟩
    · exact ⟨raise_hasLane4 _ _ _, read _ _ _ _, raised _ _ _⟩
  · rw [h1] at h
    rcases memWrite_cases off n v { s with pending := rest } with ⟨ht, h2⟩ | ⟨r, ht, hro, h2⟩ | ⟨_, h2⟩
    · obtain ⟨rfl, ha, hr⟩ := legal_of_target _ _ _ _ ht
      obtain rfl : off = 0x008 := offset_of_regAt _ _ _ ha hr
      rw [h2] at h
      rcases command_cases v { s with pending := rest } with ⟨_, h3⟩ | ⟨hs, _, h3⟩ | ⟨i, _, hd, h3⟩ <;> rw [h3] at h
      · cases h; exact .inr (.inr ⟨rfl, rd_with_pending s rest, .inl ⟨rfl, rfl⟩⟩)
      · cases h
        exact .inr (.inr ⟨rfl, fun r => (rd_with_fault { s with pending := rest } _ _ r).trans (rd_with_pending s rest r),
          .inr ⟨hs, by simp⟩⟩)
      · exact .inr (.inl ⟨_, i, rest, hp, hd, h⟩)
    · obtain ⟨rfl, ha, hr⟩ := legal_of_target _ _ _ _ ht
      obtain rfl : off = (BusReg.data r).offset := offset_of_regAt _ _ _ ha hr
      rw [h2] at h; cases h
      refine .inl ⟨r, v, rest, hp, fun hl => ?_, hro, rfl⟩
      by_contra hb
      rw [Bool.eq_false_iff.mpr hb, regAt_offset_absent r hl] at hr
      cases hr
    · rw [h2] at h; cases h
      exact .inr (.inr ⟨raise_hasLane4 _ _ _, fun r => (rd_raise _ _ _ r).trans (rd_with_pending s rest r), raised _ _ _⟩)
  · exact absurd hp (hn rest)

end Sys2Proof.Machine
end

