-- ==== Sys2Proof/Laws/Decode.lean ====
section
/-! SUPPORT. The bits of an encoded command, field by field (spec 30 R81, R87). -/

namespace Sys2Proof

/-- Every bit of `enc`, by the field it lies in (30 R81). -/
theorem getLsbD_enc (op : BitVec 8) (a b c d : Index) (r : BitVec 2) (k : Nat) (hk : k < 32) :
    (enc op a b c d r).getLsbD k =
      if k < 2 then r.getLsbD k else if k < 8 then false
      else if k < 12 then d.val.testBit (k - 8) else if k < 16 then c.val.testBit (k - 12)
      else if k < 20 then b.val.testBit (k - 16) else if k < 24 then a.val.testBit (k - 20)
      else op.getLsbD (k - 24) := by
  have hz : ∀ (f : Index) (m : Nat), 4 ≤ m → f.val.testBit m = false := fun f m hm =>
    Nat.testBit_lt_two_pow (lt_of_lt_of_le f.isLt (Nat.pow_le_pow_right (n := 2) (by norm_num) hm))
  have hr : ∀ m, 2 ≤ m → r.getLsbD m = false := fun m hm => BitVec.getLsbD_of_ge r m hm
  simp only [enc, BitVec.getLsbD_or, BitVec.getLsbD_shiftLeft, BitVec.getLsbD_setWidth, BitVec.getLsbD_ofNat]
  split_ifs <;> grind

/-- Field OP of `enc`. -/
theorem enc_op (op : BitVec 8) (a b c d : Index) (r : BitVec 2) : (enc op a b c d r).extractLsb' 24 8 = op := by
  refine BitVec.eq_of_getLsbD_eq fun i hi => ?_
  rw [BitVec.getLsbD_extractLsb', getLsbD_enc _ _ _ _ _ _ _ (by omega)]
  grind

/-- Field RSV of `enc` is 0. -/
theorem enc_rsv (op : BitVec 8) (a b c d : Index) (r : BitVec 2) : (enc op a b c d r).extractLsb' 2 6 = 0 := by
  refine BitVec.eq_of_getLsbD_eq fun i hi => ?_
  rw [BitVec.getLsbD_extractLsb', getLsbD_enc _ _ _ _ _ _ _ (by omega)]
  grind

/-- Field R of `enc`. -/
theorem enc_r (op : BitVec 8) (a b c d : Index) (r : BitVec 2) : (enc op a b c d r).extractLsb' 0 2 = r := by
  refine BitVec.eq_of_getLsbD_eq fun i hi => ?_
  rw [BitVec.getLsbD_extractLsb', getLsbD_enc _ _ _ _ _ _ _ (by omega)]
  grind

/-- A 4-bit field read bit by bit is the index whose bits they are. -/
theorem index_of_bits (w : Word) (f : Index) (at0 : Nat)
    (h : ∀ k, k < 4 → w.getLsbD (at0 + k) = f.val.testBit k) : (w.extractLsb' at0 4).toFin = f := by
  refine Fin.ext (Nat.eq_of_testBit_eq fun k => ?_)
  have hb : (w.extractLsb' at0 4).toNat.testBit k = (w.extractLsb' at0 4).getLsbD k := rfl
  have hv : ((w.extractLsb' at0 4).toFin).val = (w.extractLsb' at0 4).toNat := rfl
  rw [hv, hb, BitVec.getLsbD_extractLsb']
  by_cases hk : k < 4
  · simp [hk, h k hk]
  · have : f.val.testBit k = false := Nat.testBit_lt_two_pow
      (lt_of_lt_of_le f.isLt (Nat.pow_le_pow_right (n := 2) (by norm_num) (not_lt.mp hk)))
    simp [hk, this]

@[simp] theorem fieldA_enc (op : BitVec 8) (a b c d : Index) (r : BitVec 2) : fieldA (enc op a b c d r) = a :=
  index_of_bits _ _ _ fun k hk => by rw [getLsbD_enc _ _ _ _ _ _ _ (by omega)]; grind

@[simp] theorem fieldB_enc (op : BitVec 8) (a b c d : Index) (r : BitVec 2) : fieldB (enc op a b c d r) = b :=
  index_of_bits _ _ _ fun k hk => by rw [getLsbD_enc _ _ _ _ _ _ _ (by omega)]; grind

@[simp] theorem fieldC_enc (op : BitVec 8) (a b c d : Index) (r : BitVec 2) : fieldC (enc op a b c d r) = c :=
  index_of_bits _ _ _ fun k hk => by rw [getLsbD_enc _ _ _ _ _ _ _ (by omega)]; grind

@[simp] theorem fieldD_enc (op : BitVec 8) (a b c d : Index) (r : BitVec 2) : fieldD (enc op a b c d r) = d :=
  index_of_bits _ _ _ fun k hk => by rw [getLsbD_enc _ _ _ _ _ _ _ (by omega)]; grind

@[simp] theorem fieldR_enc (op : BitVec 8) (a b c d : Index) (r : Rot) : fieldR (enc op a b c d r.code) = r := by
  unfold fieldR
  rw [enc_r]
  cases r <;> rfl

/-! ### The rows of the opcode map, field by field (30 R85, R88) -/

theorem eq_iff_bits {n : Nat} (v p : BitVec n) : v = p ↔ ∀ k, k < n → v.getLsbD k = p.getLsbD k :=
  ⟨fun h _ _ => h ▸ rfl, fun h => BitVec.eq_of_getLsbD_eq h⟩

/-- A row without operands: its opcode and all other bits zero. -/
theorem row_plain (w p : Word) (hp : p.extractLsb' 0 24 = 0) :
    w &&& 0xFFFFFFFF = p ↔ w.extractLsb' 24 8 = p.extractLsb' 24 8 ∧ w.extractLsb' 0 24 = 0 := by
  have hw : w &&& (0xFFFFFFFF : Word) = w := by
    rw [show (0xFFFFFFFF : Word) = BitVec.allOnes 32 by decide, BitVec.and_allOnes]
  rw [hw]
  refine ⟨by rintro rfl; exact ⟨rfl, hp⟩, ?_⟩
  rintro ⟨h1, h2⟩
  rw [← hp] at h2
  refine BitVec.eq_of_getLsbD_eq fun i hi => ?_
  by_cases h : i < 24
  · simpa [h] using congrArg (fun v => v.getLsbD i) h2
  · have e : 24 + (i - 24) = i := by omega
    have e2 : i - 24 < 8 := by omega
    simpa [e, e2] using congrArg (fun v => v.getLsbD (i - 24)) h1

/-- The rows with operands: their opcode and their unused fields zero. -/
theorem row_operands (w : Word) :
    (w &&& 0xFF00F0FC = 0x03000000 ↔ w.extractLsb' 24 8 = 0x03 ∧ w.extractLsb' 12 4 = 0 ∧ w.extractLsb' 2 6 = 0) ∧
    (w &&& 0xFF00F0FC = 0x13000000 ↔ w.extractLsb' 24 8 = 0x13 ∧ w.extractLsb' 12 4 = 0 ∧ w.extractLsb' 2 6 = 0) ∧
    (w &&& 0xFF0FFFFC = 0x04000000 ↔ w.extractLsb' 24 8 = 0x04 ∧ w.extractLsb' 2 18 = 0) ∧
    (w &&& 0xFF0FFFFC = 0x14000000 ↔ w.extractLsb' 24 8 = 0x14 ∧ w.extractLsb' 2 18 = 0) ∧
    (w &&& 0xFF0000FF = 0x05000000 ↔ w.extractLsb' 24 8 = 0x05 ∧ w.extractLsb' 0 8 = 0) ∧
    (w &&& 0xFF0000FF = 0x15000000 ↔ w.extractLsb' 24 8 = 0x15 ∧ w.extractLsb' 0 8 = 0) := by
  refine ⟨?_, ?_, ?_, ?_, ?_, ?_⟩ <;>
    simp only [eq_iff_bits, Nat.forall_lt_succ_right, Nat.not_lt_zero, false_imp_iff, implies_true, true_and,
      BitVec.getLsbD_extractLsb', BitVec.getLsbD_and] <;>
    simp <;> grind

/-- All that `decode` can answer: the command of the first row that accepts the word, or none. -/
theorem row_of_decode (w : Word) (i : Instr) :
    decode w = some i → ∃ row ∈ opcodeMap, w &&& row.mask = row.pattern ∧ i = row.build w := by
  intro h
  obtain ⟨row, hf, rfl⟩ := Option.map_eq_some_iff.mp h
  exact ⟨row, List.mem_of_find?_eq_some hf, by simpa [rowAccepts] using List.find?_some hf, rfl⟩

/-- A word is a command exactly when a row accepts it (30 R88). -/
theorem decode_ne_none_iff (w : Word) : decode w ≠ none ↔ ∃ row ∈ opcodeMap, w &&& row.mask = row.pattern := by
  rw [← Option.isSome_iff_ne_none]
  simp [decode, List.find?_isSome, rowAccepts]

end Sys2Proof
end

