-- ==== Sys2Proof/Laws/Lift.lean ====
section
/-! SUPPORT. On files whose words are all valid the commands compute on plain words, and on lane vectors they compute
lane by lane (spec 10 R22; 44 R160). -/

namespace Sys2Proof.Machine

/-! ### Valid files -/

theorem lift_get_ne {n : Nat} (w : Vector Word n) (i : Fin n) : (lift w)[i] ≠ none := by simp [lift]

theorem liftLanes_get_ne {m n : Nat} (w : Vector (Vector Word m) n) (i : Fin n) (l : Fin m) :
    (liftLanes w)[i][l] ≠ none := by simp [liftLanes, lift]

/-- A file without an invalid word is a file of values (10 R22). -/
theorem exists_lift {n : Nat} (v : Vector DataWord n) (h : ∀ i : Fin n, v[i] ≠ none) : ∃ w, v = lift w := by
  refine ⟨tab fun i => v[i].get (Option.isSome_iff_ne_none.mpr (h i)), ?_⟩
  ext i hi : 1
  simp [lift]

theorem exists_liftLanes {m n : Nat} (v : Vector (Vector DataWord m) n) (h : ∀ (i : Fin n) (l : Fin m), v[i][l] ≠ none) :
    ∃ w, v = liftLanes w := by
  refine ⟨tab fun i => (exists_lift v[i] (h i)).choose, ?_⟩
  ext i hi : 1
  simp only [liftLanes, Vector.getElem_map, tab_get]
  exact (exists_lift v[i] (h ⟨i, hi⟩)).choose_spec

/-! ### The functions of the rules on valid files -/

theorem doubleRound_lift (x : Vector Word 16) : doubleRound dataOps (lift x) = lift (doubleRound wordOps x) :=
  (doubleRound_map some_respects x).symm

theorem blockWords_lift (x : Vector Word 16) : blockWords dataOps (lift x) = lift (blockWords wordOps x) :=
  (blockWords_map some_respects x).symm

theorem feedForward_lift (s x : Vector Word 16) :
    feedForward dataOps (lift s) (lift x) = lift (feedForward wordOps s x) :=
  (feedForward_map some_respects s x).symm

theorem initFn_lift (k : Vector Word 8) (n : Vector Word 3) (c : Word) :
    initFn some (lift k) (lift n) (some c) = lift (initWords k n c) := by
  simp only [initWords, initFn, lift]
  apply Vector.toArray_inj.mp
  simp

/-- `lift`, from lane vectors of words to lane vectors of valid data words. -/
theorem lift_respects : Respects (laneOps wordOps) vecOps (fun v : Vector Word 4 => lift v) := by
  refine ⟨?_, ?_, ?_⟩ <;> intro a b <;> ext i hi : 1 <;> simp [laneOps, vecOps, lift] <;> rfl

theorem doubleRound_liftLanes (x : Vector (Vector Word 4) 16) :
    doubleRound vecOps (liftLanes x) = liftLanes (doubleRound (laneOps wordOps) x) :=
  (doubleRound_map lift_respects x).symm

theorem blockWords_liftLanes (x : Vector (Vector Word 4) 16) :
    blockWords vecOps (liftLanes x) = liftLanes (blockWords (laneOps wordOps) x) :=
  (blockWords_map lift_respects x).symm

theorem feedForward_liftLanes (s x : Vector (Vector Word 4) 16) :
    feedForward vecOps (liftLanes s) (liftLanes x) = liftLanes (feedForward (laneOps wordOps) s x) :=
  (feedForward_map lift_respects s x).symm

theorem gather_liftLanes (v : Vector (Vector Word 4) 16) : gather (liftLanes v) = (gather v).map lift := by
  ext l hl w hw : 2
  simp [gather, liftLanes, lift]

/-! ### Lanes -/

theorem laneOf_get {α : Type} (v : Vector (Vector α 4) 16) (w : Index) (l : Lane) : (laneOf v l)[w] = v[w][l] := by
  simp [laneOf]

theorem laneOf_arxStep (v : Vector (Vector DataWord 4) 16) (a b d : Index) (n : Nat) (l : Lane) :
    laneOf (arxStep vecOps v a b d n) l = arxStep dataOps (laneOf v l) a b d n :=
  arxStep_map (lane_respects dataOps l) v a b d n

theorem laneOf_quarterRound (v : Vector (Vector DataWord 4) 16) (a b c d : Index) (l : Lane) :
    laneOf (quarterRound vecOps v a b c d) l = quarterRound dataOps (laneOf v l) a b c d :=
  quarterRound_map (lane_respects dataOps l) v a b c d

theorem laneOf_blockWords (o : Vector (Vector Word 4) 16) (l : Lane) :
    laneOf (blockWords (laneOps wordOps) o) l = blockWords wordOps (laneOf o l) :=
  blockWords_map (lane_respects wordOps l) o

theorem gather_get (v : Vector (Vector Word 4) 16) (l : Lane) : (gather v)[l] = laneOf v l := by
  ext w hw
  simp [gather, laneOf]

/-- The lane vectors of INIT4 hold values when K, N and CTR do, lane l the state for counter c + l (44 R161). -/
theorem initLanes_lift (k : Vector Word 8) (n : Vector Word 3) (c : Word) :
    ∃ o : Vector (Vector Word 4) 16, initLanes (lift k) (lift n) (some c) = liftLanes o ∧
      ∀ l : Lane, laneOf o l = initWords k n (c + BitVec.ofNat 32 l.val) := by
  refine ⟨tab fun w => tab fun l => (initWords k n (c + BitVec.ofNat 32 l.val))[w], ?_, fun l => ?_⟩
  · ext w hw l hl : 2
    have := congrArg (fun v => v[w]) (initFn_lift k n (c + BitVec.ofNat 32 l))
    simp [initLanes, liftLanes, lift, DataWord.add] at *
    exact this
  · ext w hw : 1
    simp [laneOf]

/-! ### What a step of the datapath leaves -/

theorem arxStep_other {α : Type} (o : WordOps α) (x : Vector α 16) (a b d i : Index) (n : Nat) (ha : i ≠ a)
    (hd : i ≠ d) : (arxStep o x a b d n)[i] = x[i] := by
  have ha' : a.val ≠ i.val := fun h => ha (Fin.ext h.symm)
  have hd' : d.val ≠ i.val := fun h => hd (Fin.ext h.symm)
  simp [arxStep, Vector.getElem_set, ha', hd']

theorem rotlStep_other {α : Type} (o : WordOps α) (x : Vector α 16) (a i : Index) (n : Nat) (ha : i ≠ a) :
    (rotlStep o x a n)[i] = x[i] := by
  have ha' : a.val ≠ i.val := fun h => ha (Fin.ext h.symm)
  simp [rotlStep, ha']

theorem quarterRound_other {α : Type} (o : WordOps α) (x : Vector α 16) (a b c d i : Index) (h : i ∉ [a, b, c, d]) :
    (quarterRound o x a b c d)[i] = x[i] := by
  simp at h
  obtain ⟨h1, h2, h3, h4⟩ := h
  simp only [quarterRound]
  rw [arxStep_other _ _ _ _ _ _ _ h3 h2, arxStep_other _ _ _ _ _ _ _ h1 h4, arxStep_other _ _ _ _ _ _ _ h3 h2,
    arxStep_other _ _ _ _ _ _ _ h1 h4]

/-- A step of the datapath on valid words leaves every valid word valid (10 R22). -/
theorem arxStep_valid (x : Vector DataWord 16) (a b d i : Index) (n : Nat) (ha : x[a] ≠ none) (hb : x[b] ≠ none)
    (hd : x[d] ≠ none) (hi : x[i] ≠ none) : (arxStep dataOps x a b d n)[i] ≠ none := by
  obtain ⟨va, ha⟩ := Option.ne_none_iff_exists'.mp ha
  obtain ⟨vb, hb⟩ := Option.ne_none_iff_exists'.mp hb
  obtain ⟨vd, hd⟩ := Option.ne_none_iff_exists'.mp hd
  obtain ⟨vi, hi⟩ := Option.ne_none_iff_exists'.mp hi
  simp only [Fin.getElem_fin] at *
  simp [arxStep, Vector.getElem_set, dataOps, DataWord.add, DataWord.xor, DataWord.rotl, ha, hb, hd, hi]
  split_ifs <;> simp_all

/-! ### The effect of a command -/

/-- An effect changes data registers only: CAP, STATUS, FINFO and the host's side stay (10 R32). -/
theorem effect_keeps (i : Instr) (s : State) :
    (effect i s).hasLane4 = s.hasLane4 ∧ (effect i s).status = s.status ∧ (effect i s).finfo = s.finfo ∧
      (effect i s).pending = s.pending ∧ (effect i s).responses = s.responses := by
  cases i <;> simp only [effect, initEffect, blockEffect, init4Effect, block4Effect, advanceCtr] <;> simp

end Sys2Proof.Machine
end

