-- ==== Sys2Proof/Laws/PerInstr.lean ====
section
/-! SUPPORT. One lemma per command: its encoded word has its opcode in field OP and zero in the reserved field
(spec 30 R81, R85). -/

namespace Sys2Proof.Laws.Form

/-- The word of a command has the opcode in bits 31:24 and zero in bits 7:2 (30 R81, R85, R88). -/
def Statement (i : Instr) : Prop :=
  (encode i).extractLsb' 24 8 = i.opcode ∧ (encode i).extractLsb' 2 6 = 0

theorem init : Statement .init := ⟨enc_op _ _ _ _ _ _, enc_rsv _ _ _ _ _ _⟩
theorem xload : Statement .xload := ⟨enc_op _ _ _ _ _ _, enc_rsv _ _ _ _ _ _⟩
theorem arx (a b d : Index) (r : Rot) : Statement (.arx a b d r) := ⟨enc_op _ _ _ _ _ _, enc_rsv _ _ _ _ _ _⟩
theorem rotl (a : Index) (r : Rot) : Statement (.rotl a r) := ⟨enc_op _ _ _ _ _ _, enc_rsv _ _ _ _ _ _⟩
theorem qr (a b c d : Index) : Statement (.qr a b c d) := ⟨enc_op _ _ _ _ _ _, enc_rsv _ _ _ _ _ _⟩
theorem dround : Statement .dround := ⟨enc_op _ _ _ _ _ _, enc_rsv _ _ _ _ _ _⟩
theorem feedfwd : Statement .feedfwd := ⟨enc_op _ _ _ _ _ _, enc_rsv _ _ _ _ _ _⟩
theorem serial : Statement .serial := ⟨enc_op _ _ _ _ _ _, enc_rsv _ _ _ _ _ _⟩
theorem block : Statement .block := ⟨enc_op _ _ _ _ _ _, enc_rsv _ _ _ _ _ _⟩
theorem gen : Statement .gen := ⟨enc_op _ _ _ _ _ _, enc_rsv _ _ _ _ _ _⟩
theorem init4 : Statement .init4 := ⟨enc_op _ _ _ _ _ _, enc_rsv _ _ _ _ _ _⟩
theorem vload : Statement .vload := ⟨enc_op _ _ _ _ _ _, enc_rsv _ _ _ _ _ _⟩
theorem varx (a b d : Index) (r : Rot) : Statement (.varx a b d r) := ⟨enc_op _ _ _ _ _ _, enc_rsv _ _ _ _ _ _⟩
theorem vrotl (a : Index) (r : Rot) : Statement (.vrotl a r) := ⟨enc_op _ _ _ _ _ _, enc_rsv _ _ _ _ _ _⟩
theorem vqr (a b c d : Index) : Statement (.vqr a b c d) := ⟨enc_op _ _ _ _ _ _, enc_rsv _ _ _ _ _ _⟩
theorem vdround : Statement .vdround := ⟨enc_op _ _ _ _ _ _, enc_rsv _ _ _ _ _ _⟩
theorem vfeedfwd : Statement .vfeedfwd := ⟨enc_op _ _ _ _ _ _, enc_rsv _ _ _ _ _ _⟩
theorem vgather : Statement .vgather := ⟨enc_op _ _ _ _ _ _, enc_rsv _ _ _ _ _ _⟩
theorem block4 : Statement .block4 := ⟨enc_op _ _ _ _ _ _, enc_rsv _ _ _ _ _ _⟩
theorem gen4 : Statement .gen4 := ⟨enc_op _ _ _ _ _ _, enc_rsv _ _ _ _ _ _⟩

end Sys2Proof.Laws.Form
end

