-- ==== Sys2Proof/Tests/Slice0.lean ====
section
/-! SUPPORT. Tests: expected values are the vectors of spec 95 and the examples of the rules, never the model's own
answers; and for every statement with hypotheses a witness that meets them. -/

namespace Sys2Proof.Tests

open Sys2Proof.Machine

-- The kernel computes long on some of these tests: they are checked one after another, not each in a thread of its own.
set_option Elab.async false

/-! ### States the tests start from -/

/-- KEY0 of spec 95. -/
def key0 : Vector Word 8 :=
  #v[0x03020100, 0x07060504, 0x0B0A0908, 0x0F0E0D0C, 0x13121110, 0x17161514, 0x1B1A1918, 0x1F1E1D1C]

/-- NONCE_A of spec 95. -/
def nonceA : Vector Word 3 := #v[0x09000000, 0x4A000000, 0x00000000]

/-- NONCE_C of spec 95. -/
def nonceC : Vector Word 3 := #v[0x00000000, 0x4A000000, 0x00000000]

/-- L2-INIT-1 of spec 95. -/
def init1 : Vector Word 16 :=
  #v[0x61707865, 0x3320646E, 0x79622D32, 0x6B206574, 0x03020100, 0x07060504, 0x0B0A0908, 0x0F0E0D0C,
     0x13121110, 0x17161514, 0x1B1A1918, 0x1F1E1D1C, 0x00000001, 0x09000000, 0x4A000000, 0x00000000]

/-- L2-DR-1 of spec 95. -/
def dr1 : Vector Word 16 :=
  #v[0xCD52E917, 0x85AB03B4, 0xB3457395, 0xF96DE7DD, 0xC4B7CD22, 0x5C2E187A, 0xC95EB461, 0x316C801A,
     0x7BF7D740, 0x7EDDD644, 0xF1A1BDF5, 0x761246CA, 0x6B0D58A3, 0x6798471A, 0xD737F167, 0xF173888D]

/-- L2-PERM-1 of spec 95. -/
def perm1 : Vector Word 16 :=
  #v[0x837778AB, 0xE238D763, 0xA67AE21E, 0x5950BB2F, 0xC4F2D0C7, 0xFC62BB2F, 0x8FA018FC, 0x3F5EC7B7,
     0x335271C2, 0xF29489F3, 0xEABDA8FC, 0x82E46EBD, 0xD19C12B4, 0xB04E16DE, 0x9E83D0CB, 0x4E3C50A2]

/-- L2-BLK-A of spec 95. -/
def blkA : Vector Word 16 :=
  #v[0xE4E7F110, 0x15593BD1, 0x1FDD0F50, 0xC47120A3, 0xC7F4D1C7, 0x0368C033, 0x9AAA2204, 0x4E6CD4C3,
     0x466482D2, 0x09AA9F07, 0x05D7C214, 0xA2028BD9, 0xD19C12B5, 0xB94E16DE, 0xE883D0CB, 0x4E3C50A2]

/-- L2-BLK-C1 of spec 95. -/
def blkC1 : Vector Word 16 :=
  #v[0xF3514F22, 0xE1D91B40, 0x6F27DE2F, 0xED1D63B8, 0x821F138C, 0xE2062C3D, 0xECCA4F7E, 0x78CFF39E,
     0xA30A3B8A, 0x920A6072, 0xCD7479B5, 0x34932BED, 0x40BA4C79, 0xCD343EC6, 0x4C2C21EA, 0xB7417DF0]

/-- The same four lanes in every lane vector of a state. -/
def sameLanes (x : Vector Word 16) : Vector (Vector Word 4) 16 := x.map (fun w => Vector.replicate 4 w)

/-- A state of a build with the 4-lane generator in which every word of every file is valid. -/
def full : State :=
  { State.resetWith true with
    k := lift key0, n := lift nonceA, ctr := some 1, st := lift init1, x := lift init1, ks := lift init1,
    v := liftLanes (sameLanes init1), vo := liftLanes (sameLanes init1), ks4 := (Vector.replicate 4 init1).map lift }

/-- `full` after a fault (STATUS = 0x21, FINFO = INIT). -/
def faulty : State := { full with status := some .uninitOperand, finfo := 0x01000000 }

/-- Right after reset, without the 4-lane generator. -/
def scalarReset : State := State.resetWith false

/-- `full` with X0..X3 given. -/
def fullX (a b c d : Word) : State :=
  { full with x := (((full.x.set 0 (some a)).set 1 (some b)).set 2 (some c)).set 3 (some d) }

/-- Whether an outcome is a next state with a property. -/
def after (o : Host.Outcome State Fault Refusal) (p : State → Bool) : Bool :=
  match o with
  | .next t => p t
  | .refused _ => false

/-- Whether a read answers this. -/
def gives (r : State × Response) (status finfo : Word) (answer : Response) : Bool :=
  r.1.statusWord == status && r.1.finfo == finfo && r.2 == answer

/-- An outcome that `after` finds to be this next state. -/
theorem eq_of_after (o : Host.Outcome State Fault Refusal) (t : State) (h : after o (fun u => u == t) = true) :
    o = .next t := by
  cases o with
  | next u => exact congrArg _ (by simpa [after] using h)
  | fault f => cases f
  | refused e => simp [after] at h

theorem full_rd (r : Reg) : full.rd r ≠ none := by
  cases r <;> simp [full, State.rd, lift, liftLanes]

theorem full_ready (i : Instr) : Ready i full :=
  ⟨rfl, by simp [Instr.WellFormed, full, State.resetWith], fun r _ => full_rd r⟩

/-! ### Encoding: each word written out from 30 R81 and R85 -/

theorem test_decode_scalar_words :
    decode 0b00000001000000000000000000000000 = some .init ∧
    decode 0b00000010000000000000000000000000 = some .xload ∧
    decode 0b00000011001001110000110100000001 = some (.arx 2 7 13 .r12) ∧
    decode 0b00000100010100000000000000000011 = some (.rotl 5 .r7) ∧
    decode 0b00000101000001001000110000000000 = some (.qr 0 4 8 12) ∧
    decode 0b00000110000000000000000000000000 = some .dround ∧
    decode 0b00000111000000000000000000000000 = some .feedfwd ∧
    decode 0b00001000000000000000000000000000 = some .serial ∧
    decode 0b00001001000000000000000000000000 = some .block ∧
    decode 0b00001010000000000000000000000000 = some .gen := by decide

theorem test_decode_lane_words :
    decode 0b00010001000000000000000000000000 = some .init4 ∧
    decode 0b00010010000000000000000000000000 = some .vload ∧
    decode 0b00010011000000010000001100000000 = some (.varx 0 1 3 .r16) ∧
    decode 0b00010100001000000000000000000011 = some (.vrotl 2 .r7) ∧
    decode 0b00010101000000010010001100000000 = some (.vqr 0 1 2 3) ∧
    decode 0b00010110000000000000000000000000 = some .vdround ∧
    decode 0b00010111000000000000000000000000 = some .vfeedfwd ∧
    decode 0b00011000000000000000000000000000 = some .vgather ∧
    decode 0b00011001000000000000000000000000 = some .block4 ∧
    decode 0b00011010000000000000000000000000 = some .gen4 := by decide

/-- 95 L2.9, L2.1, L2.2, L2.3: illegal words. -/
theorem test_decode_illegal_words :
    [0x0B000000, 0x00000000, 0xFFFFFFFF, 0x01000001, 0x03001000, 0x050000FC, 0x04510000, 0x04500004, 0x03011300,
      0x05012301, 0x06000100, 0x10000000, 0x1B000000].map decode = List.replicate 13 none := by decide

/-- No two rows of the opcode map accept one word: the opcodes differ and every mask covers them (30 R80). -/
theorem test_opcode_rows_do_not_overlap :
    opcodeMap.Pairwise (fun a b => a.pattern &&& 0xFF000000 ≠ b.pattern &&& 0xFF000000) ∧
      ∀ r ∈ opcodeMap, r.mask &&& 0xFF000000 = 0xFF000000 ∧ r.pattern &&& r.mask = r.pattern := by decide

theorem test_table_word : decodeTableWord 32 0x05048C00 = some (.qr 0 4 8 12) := by decide

/-- 30 R89. -/
theorem test_assembler :
    assemble ⟨"ARX", [.x 2, .x 7, .x 13, .amount 12]⟩ = some (.arx 2 7 13 .r12) ∧
    assemble ⟨"GEN4", []⟩ = some .gen4 ∧ assemble ⟨"VQR", [.v 0, .v 1, .v 2, .v 3]⟩ = some (.vqr 0 1 2 3) ∧
    assemble ⟨"QR", [.v 0, .v 1, .v 2, .v 3]⟩ = none := by decide

/-! ### WellFormed: an ill-formed term for each check -/

theorem test_wellFormed_lane_command :
    Instr.WellFormed false .gen4 = false ∧ Instr.WellFormed false .gen = true ∧ Instr.WellFormed true .gen4 = true := by
  decide

theorem test_wellFormed_operands :
    (AsmOperand.x 16).WellFormed = false ∧ (AsmOperand.v 16).WellFormed = false ∧
    (AsmOperand.amount 9).WellFormed = false ∧ (AsmOperand.x 15).WellFormed = true ∧
    (AsmOperand.amount 7).WellFormed = true ∧ AsmLine.WellFormed ⟨"ROTL", [.x 0, .amount 13]⟩ = false := by decide

/-! ### The datapath (95 L2.1, L2.2, L2.3, L2.5) -/

/-- L2-ARX-1 and L2-ARX-2. -/
theorem test_arx :
    after (exec (.arx 0 1 3 .r16) (fullX 0x11111111 0x01020304 0 0x01234567))
      (fun t => t.x[0] == some 0x12131415 && t.x[3] == some 0x51721330 && t.x[1] == some 0x01020304) = true ∧
    after (exec (.arx 0 1 3 .r16) (fullX 0xFFFFFFFF 1 0 0))
      (fun t => t.x[0] == some 0 && t.x[3] == some 0) = true := by decide +kernel

/-- L2-ARX-3 (a = d), L2-ARX-4 (a = b), L2-ARX-5 (b = d), on words 0 to 3. -/
theorem test_arx_aliased :
    after (exec (.arx 0 1 0 .r7) (fullX 0x12345678 0x11111111 0 0)) (fun t => t.x[0] == some 0) = true ∧
    after (exec (.arx 0 0 1 .r12) (fullX 0x80000001 0x0000FFFF 0 0))
      (fun t => t.x[0] == some 2 && t.x[1] == some 0x0FFFD000) = true ∧
    after (exec (.arx 0 1 1 .r8) (fullX 0xDEADBEEF 0x01010101 0 0))
      (fun t => t.x[0] == some 0xDFAEBFF0 && t.x[1] == some 0xAFBEF1DE) = true := by decide +kernel

/-- The table of 95 L2.1, row 80000001, and the rule's example. -/
theorem test_rotl :
    ([Rot.r16, .r12, .r8, .r7].map fun r => rotl32 0x80000001 r.amount)
      = [0x00018000, 0x00001800, 0x00000180, 0x000000C0] ∧
    after (exec (.rotl 1 .r7) (fullX 0 0x12345678 0 0)) (fun t => t.x[1] == some 0x1A2B3C09) = true := by decide +kernel

/-- L2-QR-1 and L2-QR-5 (equal indices). -/
theorem test_qr :
    after (exec (.qr 0 1 2 3) (fullX 0x11111111 0x01020304 0x9B8D6F43 0x01234567))
      (fun t => t.x.take 4 == lift #v[0xEA2A92F4, 0xCB1CF8CE, 0x4581472E, 0x5881C4BB]) = true ∧
    after (exec (.qr 0 0 1 2) (fullX 1 2 3 0))
      (fun t => t.x.take 3 == lift #v[0x80801110, 0x01010022, 0x01000020]) = true := by decide +kernel

/-- L2-DR-1. -/
theorem test_dround : after (exec .dround full) (fun t => t.x == lift dr1) = true := by decide +kernel

/-! ### The block core (95 L2.6) -/

theorem test_xload : after (exec .xload { full with x := Vector.replicate 16 none }) (fun t => t.x == lift init1) = true := by
  decide +kernel

/-- FEEDFWD on X = L2-PERM-1, and with X = ST (word 0 C2E0F0CA, word 3 D640CAE8). -/
theorem test_feedfwd :
    after (exec .feedfwd { full with x := lift perm1 }) (fun t => t.x == lift blkA) = true ∧
    after (exec .feedfwd full) (fun t => t.x[0] == some 0xC2E0F0CA && t.x[3] == some 0xD640CAE8) = true := by
  decide +kernel

/-- SERIAL and its bytes (10 F1 E7 E4). -/
theorem test_serial :
    after (exec .serial { full with x := lift blkA }) (fun t => t.ks == lift blkA) = true ∧
    (serialise blkA.toList).take 4 = [0x10, 0xF1, 0xE7, 0xE4] := by decide +kernel

/-! ### The initializer and the generators (95 L2.4, L2.7, L2.8) -/

/-- L2-INIT-1. -/
theorem test_init :
    after (exec .init { full with st := Vector.replicate 16 none }) (fun t => t.st == lift init1 && t.ctr == some 1) = true := by
  decide +kernel

/-- L2-LANE-INIT4. -/
theorem test_init4 :
    after (exec .init4 { full with n := lift nonceC, ctr := some 0xFFFFFFFE })
      (fun t => t.vo[12] == lift #v[0xFFFFFFFE, 0xFFFFFFFF, 0, 1] && t.vo[4] == lift #v[0x03020100, 0x03020100, 0x03020100, 0x03020100]
        && t.vo[14] == lift #v[0x4A000000, 0x4A000000, 0x4A000000, 0x4A000000] && t.ctr == some 0xFFFFFFFE) = true := by
  decide +kernel

theorem test_vload :
    after (exec .vload { full with v := Vector.replicate 16 (Vector.replicate 4 none) }) (fun t => t.v == full.vo) = true := by
  decide +kernel

/-- L2-LANE-VARX. -/
theorem test_varx :
    after (exec (.varx 0 1 3 .r16) { full with
        v := (((full.v.set 0 (lift #v[0x11111111, 0xFFFFFFFF, 0x80000000, 0])).set 1
          (lift #v[0x01020304, 1, 0x80000000, 0])).set 3 (lift #v[0x01234567, 0, 0x80000000, 0x12345678])) })
      (fun t => t.v[0] == lift #v[0x12131415, 0, 0, 0]
        && t.v[3] == lift #v[0x51721330, 0, 0x00008000, 0x56781234]) = true := by decide +kernel

/-- L2-LANE-VROTL. -/
theorem test_vrotl :
    after (exec (.vrotl 2 .r7) { full with v := full.v.set 2 (lift #v[0x12345678, 0x80000001, 0, 0xFFFFFFFF]) })
      (fun t => t.v[2] == lift #v[0x1A2B3C09, 0x000000C0, 0, 0xFFFFFFFF]) = true := by decide +kernel

/-- L2-LANE-VQR. -/
theorem test_vqr :
    after (exec (.vqr 0 1 2 3) { full with
        v := ((((full.v.set 0 (lift #v[0x11111111, 0, 1, 0xFFFFFFFF])).set 1 (lift #v[0x01020304, 0, 0, 0xFFFFFFFF])).set 2
          (lift #v[0x9B8D6F43, 0, 0, 0xFFFFFFFF])).set 3 (lift #v[0x01234567, 0, 0, 0xFFFFFFFF])) })
      (fun t => t.v[0] == lift #v[0xEA2A92F4, 0, 0x10000001, 0xF0000FFD]
        && t.v[1] == lift #v[0xCB1CF8CE, 0, 0x80808808, 0x88790878]
        && t.v[2] == lift #v[0x4581472E, 0, 0x01010110, 0x0110FDEF]
        && t.v[3] == lift #v[0x5881C4BB, 0, 0x01000110, 0x010FFDF0]) = true := by decide +kernel

/-- L2-LANE-VDROUND. -/
theorem test_vdround :
    after (exec .vdround full) (fun t => t.v == liftLanes (sameLanes dr1)) = true := by decide +kernel

/-- L2-LANE-VFF. -/
theorem test_vfeedfwd :
    after (exec .vfeedfwd { full with
        v := full.v.set 12 (lift #v[1, 2, 3, 4]), vo := full.vo.set 12 (lift #v[0xFFFFFFFF, 0, 0, 0]) })
      (fun t => t.v[12] == lift #v[0, 2, 3, 4]) = true := by decide +kernel

/-- L2-LANE-VGATHER. -/
theorem test_vgather :
    after (exec .vgather { full with v := full.v.set 0 (lift #v[0x132A3D14, 0x5BDA296D, 0x401E05AF, 0xF3514F22]) })
      (fun t => t.ks4[0][0] == some 0x132A3D14 && t.ks4[1][0] == some 0x5BDA296D && t.ks4[2][0] == some 0x401E05AF
        && t.ks4[3][0] == some 0xF3514F22) = true := by decide +kernel

/-! ### The bus, faults, reset (95 L2.9, P5, P6) -/

/-- L2-F-1, L2-F-7, L2-F-8, L2-F-18, and P5's discarded GEN. -/
theorem test_command_faults :
    after (memWrite 0x008 4 0x0B000000 State.reset) (fun t => t.statusWord == 0x11 && t.finfo == 0x0B000000) = true ∧
    after (memWrite 0x008 4 0x04100000 State.reset) (fun t => t.statusWord == 0x21 && t.finfo == 0x04100000) = true ∧
    after (memWrite 0x008 4 0x01000000 State.reset) (fun t => t.statusWord == 0x21 && t.finfo == 0x01000000) = true ∧
    after (memWrite 0x008 4 0x19000000 scalarReset) (fun t => t.statusWord == 0x11 && t.finfo == 0x19000000) = true ∧
    after (memWrite 0x008 4 0x0A000000 faulty) (fun t => t == faulty) = true := by decide +kernel

/-- L2-F-9, L2-F-12, L2-F-14, L2-F-15: writes that raise BUS_ERROR. -/
theorem test_bus_error_writes :
    after (memWrite 0x100 4 0 State.reset) (fun t => t.statusWord == 0x31 && t.finfo == 0x80000100) = true ∧
    after (memWrite 0x020 1 0 State.reset) (fun t => t.finfo == 0x80000020 && t.k[0] == none) = true ∧
    after (memWrite 0x500 4 0 State.reset) (fun t => t.finfo == 0x80000500) = true ∧
    after (memWrite 0x000 4 0 State.reset) (fun t => t.statusWord == 0x31 && t.finfo == 0x80000000) = true := by
  decide +kernel

/-- L2-F-10, L2-F-11, L2-F-13, L2-F-16, L2-F-17, L2-F-19, and 20 R51's example V[12][2] at 0x2C8. -/
theorem test_reads :
    gives (memRead 0x002 4 State.reset) 0x31 0x002 .busErrorResponse = true ∧
    gives (memRead 0x010 4 State.reset) 0x31 0x010 .busErrorResponse = true ∧
    gives (memRead 0x008 4 State.reset) 0x31 0x008 .busErrorResponse = true ∧
    gives (memRead 0x04C 4 State.reset) 0x41 0x04C .busErrorResponse = true ∧
    gives (memRead 0x004 4 State.reset) 0 0 (.data 0) = true ∧
    gives (memRead 0x200 4 scalarReset) 0x31 0x200 .busErrorResponse = true ∧
    gives (memRead 0x000 4 State.reset) 0 0 (.data 1) = true ∧
    gives (memRead 0x000 4 scalarReset) 0 0 (.data 0) = true ∧
    regAt true 0x2C8 = some (.data (.v 12 2)) ∧ regAt true 0x4C0 = some (.data (.ks4 3 0)) := by decide +kernel

/-- A step takes the host's next action: a write, then the read of it; and a CMD write of INIT after reset. -/
theorem test_step :
    after (step { State.reset with pending := [.write 0x04C 4 7, .read 0x04C 4] })
      (fun t => t.ctr == some 7 && t.pending == [.read 0x04C 4]) = true ∧
    after (step { full with pending := [.read 0x04C 4] }) (fun t => t.responses == [.data 1] && t.pending == []) = true ∧
    after (step (State.reset.withFetchWord 32 0x01000000)) (fun t => t.statusWord == 0x21) = true ∧
    after (step { faulty with pending := [.reset] }) (fun t => t == State.reset) = true := by decide +kernel

/-- The first key bytes of L1-1 as a bus word, and the first keystream byte of L1-4 (22). -/
theorem test_host_words :
    keyWord (Vector.ofFn fun i => BitVec.ofNat 8 i.val) 0 = 0x03020100 ∧
    partlyOverlap 0 1 2 = true ∧ partlyOverlap 3 3 2 = false ∧ partlyOverlap 0 2 2 = false := by decide +kernel

/-! ### Witnesses: states and operands that meet the hypotheses of each statement together, clause by clause -/

theorem witness_WordOperationsAreModular :
    (1 ≤ 1 ∧ 1 ≤ 31 ∧ rotl32 0x80000000 1 = 1) ∧ (1 ≤ 31 ∧ 31 ≤ 31 ∧ rotl32 1 31 = 0x80000000) := by decide

theorem witness_BytesAreLittleEndian :
    (0 < 4 ∧ byteOf 0 0x04030201 = 1) ∧ (3 < 4 ∧ byteOf 3 0x04030201 = 4) ∧ le32 1 2 3 4 = 0x04030201 ∧
    ([0x04030201, 0x08070605] : List Word)[1]? = some 0x08070605 ∧
    (serialise [0x04030201, 0x08070605])[7]? = some 8 := by decide

theorem witness_EncodeOfDecodeIsTheWord : decode 0x03270D01 = some (.arx 2 7 13 .r12) := by decide

theorem witness_IllegalWordsRaiseIllegalCmd :
    (State.reset.status = none ∧ decode 0 = none) ∧
    (scalarReset.status = none ∧ scalarReset.hasLane4 = false ∧ 0x11 ≤ (0x11000000 : Word).toNat / 2 ^ 24 ∧
      (0x11000000 : Word).toNat / 2 ^ 24 ≤ 0x1A) ∧
    (0x11 ≤ (0x1AFFFFFF : Word).toNat / 2 ^ 24 ∧ (0x1AFFFFFF : Word).toNat / 2 ^ 24 ≤ 0x1A) := by decide +kernel

theorem witness_AssemblerReadsItsOwnLines :
    assemble ⟨"ROTL", [.x 15, .amount 7]⟩ = some (.rotl 15 .r7) ∧ AsmLine.WellFormed ⟨"ROTL", [.x 16, .amount 7]⟩ = false := by
  decide

theorem witness_StepRunsTheDecodedCommand :
    ({ full with pending := [.write 0x008 4 0x05048C00] } : State).pending = .write 0x008 4 0x05048C00 :: [] ∧
    decode 0x05048C00 = some (.qr 0 4 8 12) ∧ decodeTableWord 32 0x05048C00 = some (.qr 0 4 8 12) := by decide +kernel

theorem witness_StepPerformsTheNextAccess :
    State.reset.pending = [] ∧
    ({ full with pending := [.read 0x04C 4] } : State).pending = .read 0x04C 4 :: [] ∧
    ({ full with pending := [.write 0x04C 4 7] } : State).pending = .write 0x04C 4 7 :: [] := ⟨rfl, rfl, rfl⟩

theorem witness_RegisterMapIsTheTable :
    ((0x4FC : Offset).extractLsb' 0 2 = 0 ∧ regAt true 0x4FC = some (.data (.ks4 3 15))) ∧
    [0x010, 0x01F, 0x050, 0x07F, 0x140, 0x1FF, 0x500, 0xFFF].map (regAt true) = List.replicate 8 none ∧
    [0x200, 0x4FF, 0xFFF].map (regAt false) = List.replicate 3 none ∧
    [0x020, 0x03C, 0x040, 0x048, 0x080, 0x0BC, 0x0C0, 0x0FC, 0x100, 0x13C].all (fun o => (regAt false o).isSome) = true ∧
    [0x200, 0x2FC, 0x300, 0x3FC, 0x400, 0x4FC].all (fun o => (regAt true o).isSome) = true := by decide +kernel

theorem witness_BadAccessesRaiseBusError :
    (1 ≠ 4 ∧ 8 ≠ 4) ∧ (0x021 : Offset).extractLsb' 0 2 ≠ 0 ∧ (0x023 : Offset).extractLsb' 0 2 ≠ 0 ∧
    regAt scalarReset.hasLane4 0x200 = none ∧ regAt full.hasLane4 0x500 = none ∧
    (0x000 : Offset) ∈ [0x000, 0x004, (0x00C : Offset)] ∧ (0x00C : Offset) ∈ [0x000, 0x004, (0x00C : Offset)] := by
  decide +kernel

theorem witness_ReadsGiveValuesOrUninitRead :
    (Present full (.ks4 3 15) ∧ full.rd (.ks4 3 15) = some 0) ∧
    (Present scalarReset (.ks 15) ∧ scalarReset.rd (.ks 15) = none) ∧
    (Present full (.k 0) ∧ full.rd (.k 0) = some 0x03020100) ∧
    (Present State.reset (.v 0 0) ∧ State.reset.rd (.v 0 0) = none) := by
  refine ⟨⟨fun _ => rfl, by decide +kernel⟩, ⟨fun h => ?_, by decide +kernel⟩, ⟨fun _ => rfl, by decide +kernel⟩,
    ⟨fun _ => rfl, by decide +kernel⟩⟩
  cases h

theorem witness_WritesSetOneRegister :
    (Present full (.vo 15 3) ∧ (BusReg.data (.vo 15 3)).readOnly = false) ∧
    (Present scalarReset (.k 0) ∧ (BusReg.data (.k 0)).readOnly = false) ∧ (Reg.k 1 ≠ Reg.k 0) ∧
    memRead 0x04C 4 full = (full, .data 1) := by
  refine ⟨⟨fun _ => rfl, rfl⟩, ⟨fun h => ?_, rfl⟩, by decide, by decide +kernel⟩
  cases h

theorem witness_FirstFaultSticksUntilReset :
    faulty.status ≠ none ∧ (Present faulty (.x 0) ∧ (BusReg.data (.x 0)).readOnly = false) ∧
    (Present faulty .ctr ∧ faulty.rd .ctr = some 1) ∧
    ((4 : Nat) ≠ 4 ∨ (0x001 : Offset).extractLsb' 0 2 ≠ 0 ∨ regAt faulty.hasLane4 0x001 = none) ∧
    (BusReg.data (.ks4 3 15)).readOnly = true ∧ ({ faulty with pending := [.reset] } : State).pending = .reset :: [] ∧
    (Present { faulty with ctr := none } .ctr ∧ ({ faulty with ctr := none } : State).rd .ctr = none) ∧
    NoReset { faulty with pending := [.write 0x008 4 0x0A000000] } ∧
    step { faulty with pending := [.write 0x008 4 0x0A000000] } = .next faulty := by
  refine ⟨by simp [faulty], ⟨fun _ => rfl, rfl⟩, ⟨fun _ => rfl, rfl⟩, .inr (.inl (by decide)), rfl, rfl,
    ⟨fun _ => rfl, rfl⟩, fun rest h => ?_, eq_of_after _ _ (by decide +kernel)⟩
  cases h

theorem witness_ControlWordsHaveTheirFields :
    ({ full with status := some .illegalCmd } : State).status = some .illegalCmd ∧ faulty.status = some .uninitOperand ∧
    ({ full with status := some .busError } : State).status = some .busError ∧
    ({ full with status := some .uninitRead } : State).status = some .uninitRead := ⟨rfl, rfl, rfl, rfl⟩

theorem witness_ResetClearsTheCore :
    ({ faulty with pending := [.reset, .read 0x004 4] } : State).pending = .reset :: [.read 0x004 4] := rfl

theorem reset_inv (b : Bool) : Inv (State.resetWith b) := ⟨fun _ r _ => rd_resetWith b r, rfl⟩

/-- A state with the invariant in each of the five cases of the fault record, and a step from it. -/
theorem witness_EveryStepKeepsTheInvariant :
    Inv State.reset ∧ step State.reset = .next State.reset ∧
    Inv faulty ∧ Inv { full with status := some .illegalCmd, finfo := 0 } ∧
    Inv { full with status := some .busError, finfo := 0x80000FFF } ∧
    Inv { full with status := some .uninitRead, finfo := 0x4FC } := by
  have lanes : ∀ t : State, t.hasLane4 = true → LaneFilesAbsent t := fun t h h0 => by rw [h] at h0; cases h0
  refine ⟨reset_inv _, eq_of_after _ _ (by decide +kernel), ⟨lanes _ rfl, .init, by decide, rfl⟩, ⟨lanes _ rfl, fun i h => ?_⟩,
    ⟨lanes _ rfl, ?_⟩, ⟨lanes _ rfl, ?_, .ks4 3 15, ?_⟩⟩
  · rw [show decode (0 : Word) = none by decide] at h; cases h
  · change (0x80000FFF : Word) &&& 0x7FFFF000 = 0; decide
  · change (0x4FC : Word) &&& 0xFFFFF000 = 0; decide
  · change regAt true ((0x4FC : Word).setWidth 12) = _; decide

theorem witness_ValidBitsAreNeverCleared :
    (NoReset full ∧ step full = .next full ∧ full.rd (.x 0) ≠ none) ∧
    (Ready (.rotl 0 .r7) full ∧ (∃ t, exec (.rotl 0 .r7) full = .next t) ∧ mayWrite (.rotl 0 .r7) (.x 0) = true) := by
  refine ⟨⟨fun rest h => ?_, eq_of_after _ _ (by decide +kernel), full_rd _⟩, full_ready _, ⟨_, exec_of_ready _ _ (full_ready _)⟩, by decide⟩
  cases h

theorem witness_FaultsArePrecise :
    NoReset (State.reset.withFetchWord 32 0) ∧
    step (State.reset.withFetchWord 32 0) = .next { State.reset with status := some .illegalCmd, finfo := 0 } ∧
    ({ State.reset with status := some .illegalCmd, finfo := 0 } : State).status ≠ (State.reset.withFetchWord 32 0).status := by
  refine ⟨fun rest h => ?_, eq_of_after _ _ (by decide +kernel),
    by simp [State.withFetchWord, State.reset, State.resetWith]⟩
  simp [State.withFetchWord, commandWrite] at h

/-- Each way CTR can move. -/
theorem witness_CounterMovesOnlyByWriteOrGenerator :
    (NoReset { full with pending := [.write 0x04C 4 7] } ∧
      after (step { full with pending := [.write 0x04C 4 7] }) (fun t => t.ctr == some 7) = true) ∧
    after (step (full.withFetchWord 32 0x0A000000)) (fun t => t.ctr == some 2) = true ∧
    after (step (full.withFetchWord 32 0x1A000000)) (fun t => t.ctr == some 5) = true := by
  refine ⟨⟨fun rest h => ?_, by decide +kernel⟩, by decide +kernel, by decide +kernel⟩
  cases h

theorem witness_KeyNonceAndCapabilityAreTheHosts :
    (fileOf (.k 7) = .k ∧ NoReset { full with pending := [.write 0x03C 4 9] } ∧
      after (step { full with pending := [.write 0x03C 4 9] }) (fun t => t.rd (.k 7) != full.rd (.k 7)) = true) ∧
    (fileOf (.n 2) = .n ∧ NoReset { full with pending := [.write 0x048 4 9] } ∧
      after (step { full with pending := [.write 0x048 4 9] }) (fun t => t.rd (.n 2) != full.rd (.n 2)) = true) := by
  refine ⟨⟨rfl, fun rest h => ?_, by decide +kernel⟩, rfl, fun rest h => ?_, by decide +kernel⟩ <;> cases h

/-- An execution of every command, and a register outside what it writes. -/
theorem witness_CommandsWriteOnlyTheirFiles :
    (∀ i : Instr, exec i full = .next (effect i full)) ∧ ∀ i : Instr, mayWrite i (.k 0) = false :=
  ⟨fun i => exec_of_ready i full (full_ready i), fun i => by cases i <;> rfl⟩

/-- Two states that agree on the read set of XLOAD and differ elsewhere, and two executions of it. -/
theorem witness_CommandsDependOnlyOnTheirReadSet :
    (∀ r, inReadSet .xload r = true → full.rd r = { full with ctr := some 2 }.rd r) ∧
    exec .xload full = .next full ∧ exec .xload { full with ctr := some 2 } = .next { full with ctr := some 2 } ∧
    full.status = none ∧ mayWrite .xload (.x 0) = true := by
  refine ⟨fun r h => ?_, eq_of_after _ _ (by decide +kernel), eq_of_after _ _ (by decide +kernel), rfl, rfl⟩
  cases r <;> simp [inReadSet, fileOf] at h
  rfl

/-- Each check: a fault recorded; a 4-lane command without the generator; an invalid word of the read set, alone; none. -/
theorem witness_CommandChecksInOrder :
    faulty.status ≠ none ∧ (scalarReset.status = none ∧ Instr.WellFormed scalarReset.hasLane4 .gen4 = false) ∧
    (∀ i : Instr, State.reset.status = none ∧ i.WellFormed State.reset.hasLane4 = true ∧
      ∃ r, inReadSet i r = true ∧ State.reset.rd r = none) ∧
    ∀ i : Instr, Ready i full := by
  refine ⟨by simp [faulty], ⟨rfl, by decide⟩, fun i => ⟨rfl, rfl, ?_⟩, full_ready⟩
  have h := rd_resetWith true
  cases i with
  | init | gen | init4 | gen4 => exact ⟨.ctr, rfl, h _⟩
  | xload | block => exact ⟨.st 15, rfl, h _⟩
  | arx a b d r => exact ⟨.x d, by simp [inReadSet, isXOf], h _⟩
  | rotl a r => exact ⟨.x a, by simp [inReadSet, isXOf], h _⟩
  | qr a b c d => exact ⟨.x d, by simp [inReadSet, isXOf], h _⟩
  | dround | serial | feedfwd => exact ⟨.x 15, rfl, h _⟩
  | vload | block4 => exact ⟨.vo 15 3, rfl, h _⟩
  | varx a b d r => exact ⟨.v d 3, by simp [inReadSet, isVOf], h _⟩
  | vrotl a r => exact ⟨.v a 3, by simp [inReadSet, isVOf], h _⟩
  | vqr a b c d => exact ⟨.v d 3, by simp [inReadSet, isVOf], h _⟩
  | vdround | vgather | vfeedfwd => exact ⟨.v 15 3, rfl, h _⟩

/-- What the result statements of the scalar commands assume: DroundIsColumnsThenDiagonals,
TenDroundsAreEightyQuarterRounds, XloadCopiesStIntoX, FeedfwdAddsStToX, SerialCopiesXToKs,
BlockIsPermutationAndFeedForward, InitBuildsTheCipherState, GenMakesOneBlockAndAdvances, RunOfGensCountsUp. -/
theorem witness_scalarResults :
    full.status = none ∧ full.k = lift key0 ∧ full.n = lift nonceA ∧ full.ctr = some 1 ∧ full.st = lift init1 ∧
    full.x = lift init1 ∧ full.ks = lift init1 := ⟨rfl, rfl, rfl, rfl, rfl, rfl, rfl⟩

/-- What the result statements of the 4-lane commands assume beside that: Init4BuildsFourStates, VloadCopiesVoIntoV,
VrotlIsRotlOnEveryLane, VdroundIsDoubleRoundOnEveryLane, VfeedfwdAddsVoToV, VgatherDeinterleavesTheLanes,
Block4IsBlockOnEveryLane, Gen4MakesFourBlocksAndAdvances, Gen4EqualsFourGens. -/
theorem witness_laneResults :
    full.hasLane4 = true ∧ full.v = liftLanes (sameLanes init1) ∧ full.vo = liftLanes (sameLanes init1) ∧
    full.v[(15 : Index)] = lift (sameLanes init1)[15] ∧ full.ks4 = (Vector.replicate 4 init1).map lift :=
  ⟨rfl, rfl, rfl, by decide +kernel, rfl⟩

/-- What the UNINIT_OPERAND and ILLEGAL_CMD clauses of a command's statement assume. -/
theorem witness_commandFaults :
    (∀ i : Instr, State.reset.status = none ∧ i.WellFormed State.reset.hasLane4 = true ∧
      ∃ r, inReadSet i r = true ∧ State.reset.rd r = none) ∧
    scalarReset.status = none ∧ scalarReset.hasLane4 = false :=
  ⟨witness_CommandChecksInOrder.2.2.1, rfl, rfl⟩

/-- Every command without operands: words with its opcode that are not its own, at both edges of the unused bits. -/
theorem witness_EncodedOnlyAs :
    ([0x01000001, 0x02800000, 0x06000001, 0x07800000, 0x08000001, 0x09800000, 0x0A000001] : List Word).map
      (fun w => w.extractLsb' 24 8) = [0x01, 0x02, 0x06, 0x07, 0x08, 0x09, 0x0A] ∧
    ([0x11000001, 0x12800000, 0x16000001, 0x17800000, 0x18000001, 0x19800000, 0x1A000001] : List Word).map
      (fun w => w.extractLsb' 24 8) = [0x11, 0x12, 0x16, 0x17, 0x18, 0x19, 0x1A] := by decide

/-- Words with a command's opcode and one unused bit set, at the edges of the unused fields. -/
theorem witness_unusedFields :
    ((0x01000001 : Word).extractLsb' 24 8 = (0x01000000 : Word).extractLsb' 24 8 ∧ (0x01000001 : Word) ≠ 0x01000000) ∧
    ((0x03008000 : Word).extractLsb' 24 8 = 0x03 ∧ (0x03008000 : Word).extractLsb' 12 4 ≠ 0) ∧
    ((0x03000004 : Word).extractLsb' 24 8 = 0x03 ∧ (0x03000004 : Word).extractLsb' 2 6 ≠ 0) ∧
    ((0x13001000 : Word).extractLsb' 24 8 = 0x13 ∧ (0x13001000 : Word).extractLsb' 12 4 ≠ 0) ∧
    ((0x13000080 : Word).extractLsb' 24 8 = 0x13 ∧ (0x13000080 : Word).extractLsb' 2 6 ≠ 0) ∧
    ((0x04000004 : Word).extractLsb' 24 8 = 0x04 ∧ (0x04000004 : Word).extractLsb' 2 18 ≠ 0) ∧
    ((0x14080000 : Word).extractLsb' 24 8 = 0x14 ∧ (0x14080000 : Word).extractLsb' 2 18 ≠ 0) ∧
    ((0x05000001 : Word).extractLsb' 24 8 = 0x05 ∧ (0x05000001 : Word).extractLsb' 0 8 ≠ 0) ∧
    ((0x15000080 : Word).extractLsb' 24 8 = 0x15 ∧ (0x15000080 : Word).extractLsb' 0 8 ≠ 0) := by decide

theorem witness_ArxAddsThenXorsAndRotates (a b d : Index) (r : Rot) : Ready (.arx a b d r) full := full_ready _

/-- A valid word, with the two values that every rotation keeps. -/
theorem witness_RotlRotatesOneWord :
    full.status = none ∧ full.x[(15 : Index)] = some 0 ∧ (fullX 0xFFFFFFFF 0 0 0).x[(0 : Index)] = some 0xFFFFFFFF := by
  decide +kernel

/-- Different indices, and four words that are all zero. -/
theorem witness_QrIsItsFourLines :
    Ready (.qr 0 4 8 12) full ∧ [(0 : Index), 4, 8, 12].Nodup ∧ ∀ i ∈ [(0 : Index), 1, 2, 3], (fullX 0 0 0 0).x[i] = some 0 :=
  ⟨full_ready _, by decide, by decide +kernel⟩

theorem witness_DroundIsColumnsThenDiagonals : full.status = none ∧ full.x = lift init1 := ⟨rfl, rfl⟩

/-- Diagonals before columns is another function (40 R109). -/
theorem test_reverse_order :
    (pass wordOps (pass wordOps init1 diagonals) columns == dr1) = false := by decide +kernel

theorem witness_OrderWithinAPassDoesNotMatter : columns.reverse.Perm columns ∧ diagonals.reverse.Perm diagonals :=
  ⟨List.reverse_perm _, List.reverse_perm _⟩

theorem witness_PermutationIsInjective : permutation wordOps init1 = permutation wordOps init1 := rfl

theorem witness_SerialCopiesXToKs : 3 < 4 ∧ full.ks = lift init1 := ⟨by decide, rfl⟩

theorem witness_VarxVqrReady (a b c d : Index) (r : Rot) : Ready (.varx a b d r) full ∧ Ready (.vqr a b c d) full :=
  ⟨full_ready _, full_ready _⟩

theorem witness_LaneCommandsEqualTheirSteps :
    full.v = liftLanes (sameLanes init1) ∧ full.x = lift (laneOf (sameLanes init1) 3) ∧ full.x = laneOf full.v 3 ∧
    exec .vdround full = .next (effect .vdround full) ∧ exec .dround full = .next (effect .dround full) ∧
    full.vo = liftLanes (sameLanes init1) ∧ ∀ i : Instr, Ready i full :=
  ⟨rfl, by decide +kernel, by decide +kernel, exec_of_ready .vdround full (full_ready .vdround),
    exec_of_ready .dround full (full_ready .dround), rfl, full_ready⟩

theorem witness_ScalarCommandsEqualTheirSteps : (∀ i : Instr, Ready i full) ∧ full.ctr = some 1 := ⟨full_ready, rfl⟩

/-- VLOAD from two states that agree in lane 0 and differ in lane 1 of VO. -/
theorem witness_LanesNeverInteract :
    Ready .vload full ∧ Ready .vload { full with vo := full.vo.set 0 (full.vo[0].set 1 (some 7)) } ∧
    laneOf full.vo 0 = laneOf (full.vo.set 0 (full.vo[0].set 1 (some 7))) 0 ∧ exec .vload full = .next full ∧
    exec .vload { full with vo := full.vo.set 0 (full.vo[0].set 1 (some 7)) }
      = .next { full with
          v := full.vo.set 0 (full.vo[0].set 1 (some 7)), vo := full.vo.set 0 (full.vo[0].set 1 (some 7)) } := by
  have other : Ready .vload { full with vo := full.vo.set 0 (full.vo[0].set 1 (some 7)) } := by
    refine ⟨rfl, rfl, fun r h => ?_⟩
    cases r <;> simp [inReadSet, fileOf] at h
    next w l =>
      have := full_rd (.vo w l)
      simp [State.rd, Vector.getElem_set] at *
      split_ifs <;> simp_all [Vector.getElem_set]
      split_ifs <;> simp_all
  exact ⟨full_ready _, other, by decide +kernel, eq_of_after _ _ (by decide +kernel), exec_of_ready _ _ other⟩

/-- ScalarPathXorsTheKeystream and AllPathsWriteTheSameBytes: a state with no fault and an input; both builds. -/
theorem witness_hostPaths :
    full.status = none ∧ full.hasLane4 = true ∧ scalarReset.status = none ∧ ([7] : Bytes) ≠ [] := by decide

theorem witness_TransformUndoesItself :
    (full.status = none ∧ scalarReset.status = none ∧ 1 + 2 ≤ ([1, 2, 3] : Bytes).length) ∧ (0 < 1 ∧ 1 < 0 + 2) := by decide

/-! ### Whole blocks (95 L2.5 to L2.8), last because the kernel computes longest on them -/

/-- L2-PERM-1. -/
theorem test_permutation : permutation wordOps init1 = perm1 := by decide +kernel

/-- L2-BLK-A, with X invalid before. -/
theorem test_block :
    after (exec .block { full with x := Vector.replicate 16 none })
      (fun t => t.ks == lift blkA && t.x == lift blkA && t.st == lift init1) = true := by decide +kernel

/-- L2-GEN-2, and the wrap of L2-GEN-3. -/
theorem test_gen :
    after (exec .gen { full with n := lift nonceC }) (fun t => t.ks == lift blkC1 && t.ctr == some 2) = true ∧
    after (exec .gen { full with ctr := some 0xFFFFFFFF }) (fun t => t.ctr == some 0) = true := by decide +kernel

/-- BLOCK4 on four lanes of L2-INIT-1: block 2 is L2-BLK-A (44 R177). -/
theorem test_block4 : after (exec .block4 full) (fun t => t.ks4[2] == lift blkA) = true := by decide +kernel

/-- L2-LANE-GEN4: with CTR = FFFFFFFE block 3 is L2-BLK-C1, CTR becomes 2. -/
theorem test_gen4 :
    after (exec .gen4 { full with n := lift nonceC, ctr := some 0xFFFFFFFE })
      (fun t => t.ks4[3] == lift blkC1 && t.ks4[0][0] == some 0x132A3D14 && t.ctr == some 2) = true := by decide +kernel

end Sys2Proof.Tests
end

section
/-! PROOF. Word arithmetic and byte order as numbers (spec 00 R12, R13). -/

namespace Sys2Proof.Machine

/-- The rotation as a number (00 R12). -/
theorem toNat_rotl32 (v : Word) (n : Nat) :
    (rotl32 v n).toNat = ((v.toNat <<< n) ||| (v.toNat >>> (32 - n))) % 2 ^ 32 := by
  have low : v.toNat >>> (32 - n) < 2 ^ 32 := (Nat.shiftRight_le _ _).trans_lt v.isLt
  rw [rotl32, BitVec.toNat_or, BitVec.toNat_shiftLeft, BitVec.toNat_ushiftRight, Nat.or_mod_two_pow,
    Nat.mod_eq_of_lt low]

/-- byte_k as a number (00 R13). -/
theorem toNat_byteOf (k : Nat) (w : Word) : (byteOf k w).toNat = w.toNat / 2 ^ (8 * k) % 2 ^ 8 := by
  rw [byteOf, BitVec.extractLsb'_toNat, Nat.shiftRight_eq_div_pow]

/-- A byte put above a word that lies below bit n is added: the two have no bit in common. -/
theorem toNat_or_byte_shiftLeft (lo : Word) (b : Byte) (n : Nat) (hlo : lo.toNat < 2 ^ n) (hn : n + 8 ≤ 32) :
    (lo ||| b.setWidth 32 <<< n).toNat = lo.toNat + b.toNat * 2 ^ n := by
  have hb : b.toNat <<< n < 2 ^ 32 := by
    rw [Nat.shiftLeft_eq]
    calc b.toNat * 2 ^ n < 2 ^ 8 * 2 ^ n := by gcongr; exact b.isLt
      _ = 2 ^ (8 + n) := (pow_add _ _ _).symm
      _ ≤ 2 ^ 32 := by gcongr <;> omega
  rw [BitVec.toNat_or, BitVec.toNat_shiftLeft, BitVec.toNat_setWidth_of_le (by omega), Nat.mod_eq_of_lt hb,
    Nat.or_comm, ← Nat.shiftLeft_add_eq_or_of_lt hlo, Nat.shiftLeft_eq, Nat.add_comm]

/-- The little-endian number of four bytes (00 R13). -/
theorem toNat_le32 (b0 b1 b2 b3 : Byte) :
    (le32 b0 b1 b2 b3).toNat = b0.toNat + b1.toNat * 2 ^ 8 + b2.toNat * 2 ^ 16 + b3.toNat * 2 ^ 24 := by
  have h0 := b0.isLt
  have h1 := b1.isLt
  have h2 := b2.isLt
  have e0 : (b0.setWidth 32).toNat = b0.toNat := BitVec.toNat_setWidth_of_le (by omega)
  have e1 := toNat_or_byte_shiftLeft (b0.setWidth 32) b1 8 (by omega) (by omega)
  have e2 := toNat_or_byte_shiftLeft (b0.setWidth 32 ||| b1.setWidth 32 <<< 8) b2 16 (by omega) (by omega)
  rw [le32, toNat_or_byte_shiftLeft _ b3 24 (by omega) (by omega), e2, e1, e0]

/-- A word is put together again from its bytes (00 R13). -/
theorem le32_byteOf (w : Word) : le32 (byteOf 0 w) (byteOf 1 w) (byteOf 2 w) (byteOf 3 w) = w := by
  apply BitVec.eq_of_toNat_eq
  have := w.isLt
  simp only [toNat_le32, toNat_byteOf]
  omega

/-- The first word gives the first four bytes (00 R13). -/
theorem serialise_cons (w : Word) (ws : List Word) :
    serialise (w :: ws) = [byteOf 0 w, byteOf 1 w, byteOf 2 w, byteOf 3 w] ++ serialise ws := rfl

/-- Byte 4j+k of a serialisation (00 R13). -/
theorem getElem?_serialise {ws : List Word} {j k : Nat} {w : Word} (hk : k < 4) (hw : ws[j]? = some w) :
    (serialise ws)[4 * j + k]? = some (byteOf k w) := by
  induction ws generalizing j with
  | nil => cases hw
  | cons u us ih =>
    rw [serialise_cons]
    cases j with
    | zero =>
      obtain rfl : u = w := Option.some.inj hw
      interval_cases k <;> rfl
    | succ j =>
      rw [List.getElem?_append_right (by simp; omega)]
      have e : 4 * (j + 1) + k - 4 = 4 * j + k := by omega
      simpa only [List.length_cons, List.length_nil, e] using ih hw

/-- Settles O1: the numbers word by word, and the projection on a lane respects the three operations. -/
theorem wordOperationsAreModular : Obligations.WordOperationsAreModular := by
  unfold Obligations.WordOperationsAreModular
  refine ⟨BitVec.toNat_add, BitVec.toNat_xor, fun v n _ _ => toNat_rotl32 v n, fun u v n l => ?_,
    rfl, rfl, rfl, rfl⟩
  have lane := lane_respects wordOps l
  exact ⟨lane.add u v, lane.xor u v, lane.rotl u n⟩

/-- Settles O2: the round trip from the two numbers, the serialisation by induction on the words. -/
theorem bytesAreLittleEndian : Obligations.BytesAreLittleEndian :=
  ⟨fun w k _ => toNat_byteOf k w, toNat_le32, le32_byteOf, fun _ _ _ _ hk hw => getElem?_serialise hk hw⟩

end Sys2Proof.Machine
end

section
/-! PROOF. The word of every command decodes to that command (spec 30 R80, R85, R87). -/

namespace Sys2Proof

/-! ### One row for a word -/

/-- Every row fixes all of field OP (30 R85). -/
theorem opcodeMap_masks_opcode : ∀ row ∈ opcodeMap, row.mask.extractLsb' 24 8 = BitVec.allOnes 8 := by
  decide

/-- No two rows share an opcode (30 R85). -/
theorem opcodeMap_opcodes_nodup : (opcodeMap.map fun row => row.pattern.extractLsb' 24 8).Nodup := by
  decide

theorem opcode_of_accepts {w : Word} {row : Row} (hr : row ∈ opcodeMap) (hw : w &&& row.mask = row.pattern) :
    w.extractLsb' 24 8 = row.pattern.extractLsb' 24 8 := by
  rw [← hw, BitVec.extractLsb'_and, opcodeMap_masks_opcode row hr, BitVec.and_allOnes]

/-- At most one row accepts a word (30 R80). -/
theorem row_eq_of_accepts {w : Word} {row row' : Row} (hr : row ∈ opcodeMap) (hr' : row' ∈ opcodeMap)
    (hw : w &&& row.mask = row.pattern) (hw' : w &&& row'.mask = row'.pattern) : row = row' :=
  List.inj_on_of_nodup_map opcodeMap_opcodes_nodup hr hr'
    ((opcode_of_accepts hr hw).symm.trans (opcode_of_accepts hr' hw'))

/-- A word that a row accepts is that row's command: the order of the rows does not matter (30 R80). -/
theorem decode_of_accepts {w : Word} {row : Row} (hr : row ∈ opcodeMap) (hw : w &&& row.mask = row.pattern) :
    decode w = some (row.build w) := by
  obtain ⟨i, hi⟩ := Option.ne_none_iff_exists'.mp ((decode_ne_none_iff w).mpr ⟨row, hr, hw⟩)
  obtain ⟨row', hr', hw', rfl⟩ := row_of_decode w i hi
  rw [hi, row_eq_of_accepts hr hr' hw hw']

/-! ### The fields a command does not use -/

theorem testBit_index_zero (k : Nat) : (0 : Index).val.testBit k = false := Nat.zero_testBit k

theorem extractLsb'_eq_zero (w : Word) (at0 len : Nat) (h : ∀ k, k < len → w.getLsbD (at0 + k) = false) :
    w.extractLsb' at0 len = 0 :=
  BitVec.eq_of_getLsbD_eq fun k hk => by simp [hk, h k hk]

/-- An encoding with field C unused has it 0 (30 R87). -/
theorem enc_c_eq_zero (op : BitVec 8) (a b d : Index) (r : BitVec 2) : (enc op a b 0 d r).extractLsb' 12 4 = 0 :=
  extractLsb'_eq_zero _ _ _ fun k hk => by rw [getLsbD_enc _ _ _ _ _ _ _ (by omega)]; grind [testBit_index_zero]

/-- An encoding with fields B, C and D unused has 0 from RSV up to B (30 R87). -/
theorem enc_bcd_eq_zero (op : BitVec 8) (a : Index) (r : BitVec 2) : (enc op a 0 0 0 r).extractLsb' 2 18 = 0 :=
  extractLsb'_eq_zero _ _ _ fun k hk => by rw [getLsbD_enc _ _ _ _ _ _ _ (by omega)]; grind [testBit_index_zero]

/-- An encoding with field R unused has 0 below field D (30 R87). -/
theorem enc_low_eq_zero (op : BitVec 8) (a b c d : Index) : (enc op a b c d 0).extractLsb' 0 8 = 0 :=
  extractLsb'_eq_zero _ _ _ fun k hk => by rw [getLsbD_enc _ _ _ _ _ _ _ (by omega)]; grind

/-- The word of a command decodes to that command (30 R85, R87): with operands its row accepts it and gives the
fields back, without operands the decoder runs on the one word. -/
theorem decode_encode (i : Instr) : decode (encode i) = some i := by
  obtain ⟨arxRow, varxRow, rotlRow, vrotlRow, qrRow, vqrRow⟩ := row_operands (encode i)
  cases i with
  | arx a b d r =>
    have := decode_of_accepts (row := opcodeMap[2]) (List.getElem_mem _)
      (arxRow.mpr ⟨enc_op .., enc_c_eq_zero .., enc_rsv ..⟩)
    simpa [encode, opcodeMap, scalarRows] using this
  | varx a b d r =>
    have := decode_of_accepts (row := opcodeMap[12]) (List.getElem_mem _)
      (varxRow.mpr ⟨enc_op .., enc_c_eq_zero .., enc_rsv ..⟩)
    simpa [encode, opcodeMap, scalarRows, laneRows] using this
  | rotl a r =>
    have := decode_of_accepts (row := opcodeMap[3]) (List.getElem_mem _)
      (rotlRow.mpr ⟨enc_op .., enc_bcd_eq_zero ..⟩)
    simpa [encode, opcodeMap, scalarRows] using this
  | vrotl a r =>
    have := decode_of_accepts (row := opcodeMap[13]) (List.getElem_mem _)
      (vrotlRow.mpr ⟨enc_op .., enc_bcd_eq_zero ..⟩)
    simpa [encode, opcodeMap, scalarRows, laneRows] using this
  | qr a b c d =>
    have := decode_of_accepts (row := opcodeMap[4]) (List.getElem_mem _) (qrRow.mpr ⟨enc_op .., enc_low_eq_zero ..⟩)
    simpa [encode, opcodeMap, scalarRows] using this
  | vqr a b c d =>
    have := decode_of_accepts (row := opcodeMap[14]) (List.getElem_mem _) (vqrRow.mpr ⟨enc_op .., enc_low_eq_zero ..⟩)
    simpa [encode, opcodeMap, scalarRows, laneRows] using this
  | _ => rfl

end Sys2Proof
end

section
/-! PROOF. Every operation keeps the invariant: no 4-lane word in a build without the generator, and a fault record
that belongs together (spec 00 R8; 10 R36, R37; 60 R222). -/

namespace Sys2Proof.Machine

/-! ### The words a fault records -/

theorem setWidth_offset_and_eq_zero (off : Offset) (m : Word) (hm : m.extractLsb' 0 12 = 0) :
    off.setWidth 32 &&& m = 0 := by
  refine BitVec.eq_of_getLsbD_eq fun k _ => ?_
  by_cases hk : k < 12
  · have low : m.getLsbD k = false := by simpa [hk] using congrArg (BitVec.getLsbD · k) hm
    simp [low]
  · simp [BitVec.getLsbD_of_ge off k (by omega)]

theorem accessInfo_reserved_zero (isWrite : Bool) (off : Offset) : accessInfo isWrite off &&& 0x7FFFF000 = 0 := by
  have low := setWidth_offset_and_eq_zero off 0x7FFFF000 (by decide)
  cases isWrite with
  | false => rw [accessInfo_read, low]
  | true => rw [accessInfo_write, BitVec.and_or_distrib_right, low]; decide

/-! ### The parts of the invariant -/

/-- The host's side of the bus is no part of the invariant. -/
theorem inv_with_pending {s : State} (h : Inv s) (p : List HostAction) : Inv { s with pending := p } := by
  obtain ⟨lanes, record⟩ := h
  exact ⟨fun h0 r hr => (rd_with_pending s p r).trans (lanes h0 r hr), record⟩

theorem inv_with_responses {s : State} (h : Inv s) (q : List Response) : Inv { s with responses := q } := by
  obtain ⟨lanes, record⟩ := h
  exact ⟨fun h0 r hr => (rd_with_responses s q r).trans (lanes h0 r hr), record⟩

/-- Recording a fault keeps the invariant when cause and FINFO belong together (60 R222). -/
theorem inv_with_fault {s : State} (h : Inv s) {e : Cause} {info : Word}
    (record : FaultRecordOk { s with status := some e, finfo := info }) :
    Inv { s with status := some e, finfo := info } := by
  obtain ⟨lanes, _⟩ := h
  exact ⟨fun h0 r hr => (rd_with_fault s _ _ r).trans (lanes h0 r hr), record⟩

theorem inv_raise {s : State} (h : Inv s) {e : Cause} {info : Word}
    (record : FaultRecordOk { s with status := some e, finfo := info }) : Inv (s.raise e info) := by
  rcases raise_cases s e info with ⟨_, hr⟩ | ⟨_, hr⟩ <;> rw [hr]
  · exact h
  · exact inv_with_fault h record

/-- A change of data registers alone keeps the invariant when it leaves the 4-lane files of a build without the
generator. -/
theorem inv_of_same_fault {s t : State} (h : Inv s) (hb : t.hasLane4 = s.hasLane4) (hs : t.status = s.status)
    (hf : t.finfo = s.finfo) (hr : s.hasLane4 = false → ∀ r : Reg, r.isLane = true → t.rd r = s.rd r) : Inv t := by
  obtain ⟨lanes, record⟩ := h
  refine ⟨fun h0 r hl => ?_, ?_⟩
  · rw [hb] at h0
    rw [hr h0 r hl, lanes h0 r hl]
  · unfold FaultRecordOk
    rw [hb, hs, hf]
    exact record

/-- A bus write reaches present registers only (20 R54). -/
theorem inv_wr {s : State} (h : Inv s) (r : Reg) (v : Word) (hp : Present s r) : Inv (s.wr r v) := by
  refine inv_of_same_fault h (wr_hasLane4 ..) (wr_status ..) (wr_finfo ..) fun h0 r' hl => rd_wr_ne s r r' v ?_
  rintro rfl
  rw [hp hl] at h0
  cases h0

/-- A scalar command writes no word of V, VO and KS4 (10 R21). -/
theorem effect_scalar_keeps_lane_files (i : Instr) (s : State) (hi : i.isLane = false) :
    (effect i s).v = s.v ∧ (effect i s).vo = s.vo ∧ (effect i s).ks4 = s.ks4 := by
  revert hi
  cases i <;> simp [Instr.isLane, effect, initEffect, blockEffect, advanceCtr]

theorem rd_effect_scalar (i : Instr) (s : State) (r : Reg) (hi : i.isLane = false) (hr : r.isLane = true) :
    (effect i s).rd r = s.rd r := by
  obtain ⟨hv, hvo, hks4⟩ := effect_scalar_keeps_lane_files i s hi
  cases r with
  | v w l => simp only [State.rd, hv]
  | vo w l => simp only [State.rd, hvo]
  | ks4 l j => simp only [State.rd, hks4]
  | _ => cases hr

/-- A command that executes is one of the build, and without the generator it is a scalar one (44 R160). -/
theorem inv_effect {s : State} (h : Inv s) (i : Instr) (hw : i.WellFormed s.hasLane4 = true) : Inv (effect i s) := by
  obtain ⟨hb, hs, hf, _, _⟩ := effect_keeps i s
  refine inv_of_same_fault h hb hs hf fun h0 r hr => rd_effect_scalar i s r ?_ hr
  simpa [Instr.WellFormed, h0] using hw

/-- The faults of a command record its own word, which decodes to it (60 R224, R226). -/
theorem inv_exec {s t : State} (h : Inv s) (i : Instr) (ht : exec i s = .next t) : Inv t := by
  rcases exec_cases i s with ⟨_, he⟩ | ⟨_, hw, he⟩ | ⟨⟨_, hw, _⟩, he⟩ | ⟨_, hw, _, he⟩ <;>
    obtain rfl := Host.Outcome.next.inj (he.symm.trans ht)
  · exact h
  · refine inv_with_fault h fun j hj => ?_
    obtain rfl := Option.some.inj ((decode_encode i).symm.trans hj)
    exact hw
  · exact inv_effect h i hw
  · exact inv_with_fault h ⟨i, decode_encode i, hw⟩

/-- An undecodable word is recorded as one (60 R224). -/
theorem inv_command {s t : State} (h : Inv s) (c : Word) (ht : command c s = .next t) : Inv t := by
  rcases command_cases c s with ⟨_, hc⟩ | ⟨_, hd, hc⟩ | ⟨i, _, _, hc⟩ <;> rw [hc] at ht
  · cases ht; exact h
  · cases ht
    exact inv_with_fault h fun i hi => by cases hd.symm.trans hi
  · exact inv_exec h i ht

theorem inv_raise_busError {s : State} (h : Inv s) (isWrite : Bool) (off : Offset) :
    Inv (s.raise .busError (accessInfo isWrite off)) :=
  inv_raise h (accessInfo_reserved_zero isWrite off)

theorem inv_raise_uninitRead {s : State} (h : Inv s) {off : Offset} {r : Reg}
    (hr : regAt s.hasLane4 off = some (.data r)) : Inv (s.raise .uninitRead (accessInfo false off)) := by
  refine inv_raise h ⟨?_, r, ?_⟩ <;> rw [accessInfo_read]
  · exact setWidth_offset_and_eq_zero off _ (by decide)
  · rwa [BitVec.setWidth_setWidth_of_le _ (by omega), BitVec.setWidth_eq]

theorem inv_memRead {s : State} (h : Inv s) (off : Offset) (size : Nat) : Inv (memRead off size s).1 := by
  rcases memRead_cases off size s with ⟨w, hm⟩ | ⟨_, hm⟩ | ⟨r, ht, _, hm⟩ <;> rw [hm]
  · exact h
  · exact inv_raise_busError h false off
  · obtain ⟨_, _, hr⟩ := legal_of_target s off size _ ht
    exact inv_raise_uninitRead h hr

/-- A register mapped at an aligned offset is one of the build (20 R51, R54). -/
theorem present_of_regAt {s : State} {off : Offset} {r : Reg} (ha : off.extractLsb' 0 2 = 0)
    (hr : regAt s.hasLane4 off = some (.data r)) : Present s r := by
  intro hl
  by_contra hb
  rw [offset_of_regAt _ off _ ha hr, Bool.eq_false_iff.mpr hb, regAt_offset_absent r hl] at hr
  cases hr

theorem inv_memWrite {s t : State} (h : Inv s) (off : Offset) (size : Nat) (v : Word)
    (ht : memWrite off size v s = .next t) : Inv t := by
  rcases memWrite_cases off size v s with ⟨_, hm⟩ | ⟨r, htgt, _, hm⟩ | ⟨_, hm⟩ <;> rw [hm] at ht
  · exact inv_command h v ht
  · cases ht
    obtain ⟨_, ha, hr⟩ := legal_of_target s off size _ htgt
    exact inv_wr h r v (present_of_regAt ha hr)
  · cases ht
    exact inv_raise_busError h true off

theorem inv_resetCore (s : State) : Inv s.resetCore := ⟨fun _ r _ => rd_resetCore s r, rfl⟩

/-- Settles O20, by the kinds of host action; each fault the action can record belongs together with its FINFO. -/
theorem everyStepKeepsTheInvariant : Obligations.EveryStepKeepsTheInvariant := by
  intro s t h ht
  rcases step_cases s with ⟨_, hs⟩ | ⟨off, size, rest, _, hs⟩ | ⟨off, size, v, rest, _, hs⟩ | ⟨rest, _, hs⟩ <;>
    rw [hs] at ht
  · cases ht; exact h
  · cases ht
    exact inv_with_responses (inv_memRead (inv_with_pending h rest) off size) _
  · exact inv_memWrite (inv_with_pending h rest) off size v ht
  · cases ht
    exact inv_resetCore _

end Sys2Proof.Machine
end

section
/-! PROOF. What every command writes: it leaves every other register alone, it leaves a value in what it writes, and
what it writes there depends on its read set alone (spec 10 R21, R22, R32; 30 R80). -/

namespace Sys2Proof.Machine

/-! ### Named words of X and named lane vectors of V (30 R83) -/

theorem isXOf_iff {is : List Index} {r : Reg} : isXOf is r = true ↔ ∃ j ∈ is, r = .x j := by
  cases r <;> simp [isXOf]

theorem isVOf_iff {is : List Index} {r : Reg} : isVOf is r = true ↔ ∃ w ∈ is, ∃ l, r = .v w l := by
  cases r <;> simp [isVOf]

/-! ### The frame of an effect -/

/-- A change of the named words of X alone leaves every other register. -/
theorem rd_with_x {s : State} {x : Vector DataWord 16} {is : List Index} {r : Reg} (hr : isXOf is r = false)
    (hx : ∀ j, j ∉ is → x[j] = s.x[j]) : ({ s with x := x } : State).rd r = s.rd r := by
  cases r with
  | x j => exact hx j (by simpa [isXOf] using hr)
  | _ => rfl

/-- A change of the named lane vectors of V alone leaves every other register. -/
theorem rd_with_v {s : State} {v : Vector (Vector DataWord 4) 16} {is : List Index} {r : Reg} (hr : isVOf is r = false)
    (hv : ∀ w, w ∉ is → v[w] = s.v[w]) : ({ s with v := v } : State).rd r = s.rd r := by
  cases r with
  | v w l => exact congrArg (·[l]) (hv w (by simpa [isVOf] using hr))
  | _ => rfl

theorem arxStep_not_mem {α : Type} (o : WordOps α) (x : Vector α 16) (a b d : Index) (n : Nat) (j : Index)
    (hj : j ∉ [a, d]) : (arxStep o x a b d n)[j] = x[j] := by
  obtain ⟨ha, hd⟩ : j ≠ a ∧ j ≠ d := by simpa using hj
  exact arxStep_other o x a b d j n ha hd

theorem rotlStep_not_mem {α : Type} (o : WordOps α) (x : Vector α 16) (a : Index) (n : Nat) (j : Index)
    (hj : j ∉ [a]) : (rotlStep o x a n)[j] = x[j] :=
  rotlStep_other o x a j n (by simpa using hj)

/-- An effect leaves every register outside those its rule writes (10 R21, R32). -/
theorem rd_effect_of_not_mayWrite (i : Instr) (s : State) (r : Reg) (h : mayWrite i r = false) :
    (effect i s).rd r = s.rd r := by
  cases i with
  | arx a b d rot => exact rd_with_x h (arxStep_not_mem dataOps s.x a b d _)
  | rotl a rot => exact rd_with_x h (rotlStep_not_mem dataOps s.x a _)
  | qr a b c d => exact rd_with_x h fun j => quarterRound_other dataOps s.x a b c d j
  | varx a b d rot => exact rd_with_v h (arxStep_not_mem vecOps s.v a b d _)
  | vrotl a rot => exact rd_with_v h (rotlStep_not_mem vecOps s.v a _)
  | vqr a b c d => exact rd_with_v h fun w => quarterRound_other vecOps s.v a b c d w
  | _ =>
    cases r <;> simp [mayWrite, fileOf] at h <;>
      simp only [effect, initEffect, blockEffect, init4Effect, block4Effect, advanceCtr, State.rd]

/-- All that a command can do to the registers: leave them all, or execute (30 R80; 60 R230). -/
theorem exec_rd_cases {i : Instr} {s t : State} (h : exec i s = .next t) :
    (∀ r, t.rd r = s.rd r) ∨ (Ready i s ∧ t = effect i s) := by
  rcases exec_cases i s with ⟨_, he⟩ | ⟨_, _, he⟩ | ⟨hready, he⟩ | ⟨_, _, _, he⟩ <;>
    obtain rfl := Host.Outcome.next.inj (he.symm.trans h)
  · exact .inl fun _ => rfl
  · exact .inl (rd_with_fault s _ _)
  · exact .inr ⟨hready, rfl⟩
  · exact .inl (rd_with_fault s _ _)

/-- Settles O26: a command that executes has the frame of its effect, any other at most records a fault. -/
theorem commandsWriteOnlyTheirFiles : Obligations.CommandsWriteOnlyTheirFiles := by
  intro i s t h
  rcases exec_cases i s with ⟨_, he⟩ | ⟨_, _, he⟩ | ⟨_, he⟩ | ⟨_, _, _, he⟩ <;>
    obtain rfl := Host.Outcome.next.inj (he.symm.trans h)
  · exact ⟨fun _ _ => rfl, rfl, rfl, rfl, .inl ⟨rfl, rfl⟩⟩
  · exact ⟨fun r _ => rd_with_fault s _ _ r, rfl, rfl, rfl, .inr (rd_with_fault s _ _)⟩
  · obtain ⟨hcap, hstatus, hfinfo, hpending, hresponses⟩ := effect_keeps i s
    exact ⟨rd_effect_of_not_mayWrite i s, hcap, hpending, hresponses, .inl ⟨hstatus, hfinfo⟩⟩
  · exact ⟨fun r _ => rd_with_fault s _ _ r, rfl, rfl, rfl, .inr (rd_with_fault s _ _)⟩

/-! ### What an effect writes depends on the read set -/

/-- Two files that agree on the words an ARX step names agree on them after it. -/
theorem arxStep_agree {α : Type} (o : WordOps α) {is : List Index} {a b d : Index} (ha : a ∈ is) (hb : b ∈ is)
    (hd : d ∈ is) (n : Nat) {x y : Vector α 16} (h : ∀ j ∈ is, x[j] = y[j]) :
    ∀ j ∈ is, (arxStep o x a b d n)[j] = (arxStep o y a b d n)[j] := by
  intro j hj
  have ha := h a ha
  have hb := h b hb
  have hd := h d hd
  have hj := h j hj
  simp only [Fin.getElem_fin] at ha hb hd hj
  simp only [arxStep, Fin.getElem_fin, Vector.getElem_set, ha, hb, hd, hj]

theorem rotlStep_agree {α : Type} (o : WordOps α) (a : Index) (n : Nat) {x y : Vector α 16}
    (h : ∀ j ∈ [a], x[j] = y[j]) : ∀ j ∈ [a], (rotlStep o x a n)[j] = (rotlStep o y a n)[j] := by
  simp only [List.mem_singleton, forall_eq, Fin.getElem_fin] at h ⊢
  simp only [rotlStep, Fin.getElem_fin, Vector.getElem_set_self, h]

theorem quarterRound_agree {α : Type} (o : WordOps α) (a b c d : Index) {x y : Vector α 16}
    (h : ∀ j ∈ [a, b, c, d], x[j] = y[j]) :
    ∀ j ∈ [a, b, c, d], (quarterRound o x a b c d)[j] = (quarterRound o y a b c d)[j] := by
  obtain ⟨ha, hb, hc, hd⟩ : a ∈ [a, b, c, d] ∧ b ∈ [a, b, c, d] ∧ c ∈ [a, b, c, d] ∧ d ∈ [a, b, c, d] := by simp
  have h1 := arxStep_agree o ha hb hd 16 h
  have h2 := arxStep_agree o hc hd hb 12 h1
  have h3 := arxStep_agree o ha hb hd 8 h2
  exact arxStep_agree o hc hd hb 7 h3

section Agree

/-! The words of a read set in two states that agree on it: the named ones, or a file read whole. -/

variable {s s' : State} {is : List Index}

theorem x_agree_on (h : ∀ r, isXOf is r = true → s.rd r = s'.rd r) : ∀ j ∈ is, s.x[j] = s'.x[j] :=
  fun j hj => h (.x j) (isXOf_iff.mpr ⟨j, hj, rfl⟩)

theorem v_agree_on (h : ∀ r, isVOf is r = true → s.rd r = s'.rd r) : ∀ w ∈ is, s.v[w] = s'.v[w] :=
  fun w hw => Vector.ext fun l hl => h (.v w ⟨l, hl⟩) (isVOf_iff.mpr ⟨w, hw, ⟨l, hl⟩, rfl⟩)

theorem k_eq_of_agree (h : ∀ r, fileOf r = .k → s.rd r = s'.rd r) : s.k = s'.k := by
  ext1 j hj; exact h (.k ⟨j, hj⟩) rfl

theorem n_eq_of_agree (h : ∀ r, fileOf r = .n → s.rd r = s'.rd r) : s.n = s'.n := by
  ext1 j hj; exact h (.n ⟨j, hj⟩) rfl

theorem st_eq_of_agree (h : ∀ r, fileOf r = .st → s.rd r = s'.rd r) : s.st = s'.st := by
  ext1 j hj; exact h (.st ⟨j, hj⟩) rfl

theorem x_eq_of_agree (h : ∀ r, fileOf r = .x → s.rd r = s'.rd r) : s.x = s'.x := by
  ext1 j hj; exact h (.x ⟨j, hj⟩) rfl

theorem v_eq_of_agree (h : ∀ r, fileOf r = .v → s.rd r = s'.rd r) : s.v = s'.v := by
  ext1 w hw; ext1 l hl; exact h (.v ⟨w, hw⟩ ⟨l, hl⟩) rfl

theorem vo_eq_of_agree (h : ∀ r, fileOf r = .vo → s.rd r = s'.rd r) : s.vo = s'.vo := by
  ext1 w hw; ext1 l hl; exact h (.vo ⟨w, hw⟩ ⟨l, hl⟩) rfl

/-- K, N and CTR, which INIT, GEN, INIT4 and GEN4 read. -/
theorem key_eq_of_agree (h : ∀ r, inReadSet .init r = true → s.rd r = s'.rd r) :
    s.k = s'.k ∧ s.n = s'.n ∧ s.ctr = s'.ctr :=
  ⟨k_eq_of_agree fun r hr => h r (by simp [inReadSet, hr]), n_eq_of_agree fun r hr => h r (by simp [inReadSet, hr]),
    h .ctr rfl⟩

end Agree

/-- What an effect leaves in a register it writes depends on its read set alone (10 R21). -/
theorem rd_effect_congr (i : Instr) {s s' : State} (h : ∀ r, inReadSet i r = true → s.rd r = s'.rd r) (r : Reg)
    (hr : mayWrite i r = true) : (effect i s).rd r = (effect i s').rd r := by
  cases i with
  | arx a b d rot =>
    obtain ⟨j, hj, rfl⟩ := isXOf_iff.mp hr
    exact arxStep_agree dataOps (is := [a, b, d]) (by simp) (by simp) (by simp) _ (x_agree_on h) j (by grind)
  | rotl a rot =>
    obtain ⟨j, hj, rfl⟩ := isXOf_iff.mp hr
    exact rotlStep_agree dataOps a _ (x_agree_on h) j hj
  | qr a b c d =>
    obtain ⟨j, hj, rfl⟩ := isXOf_iff.mp hr
    exact quarterRound_agree dataOps a b c d (x_agree_on h) j hj
  | varx a b d rot =>
    obtain ⟨w, hw, l, rfl⟩ := isVOf_iff.mp hr
    exact congrArg (·[l])
      (arxStep_agree vecOps (is := [a, b, d]) (by simp) (by simp) (by simp) _ (v_agree_on h) w (by grind))
  | vrotl a rot =>
    obtain ⟨w, hw, l, rfl⟩ := isVOf_iff.mp hr
    exact congrArg (·[l]) (rotlStep_agree vecOps a _ (v_agree_on h) w hw)
  | vqr a b c d =>
    obtain ⟨w, hw, l, rfl⟩ := isVOf_iff.mp hr
    exact congrArg (·[l]) (quarterRound_agree vecOps a b c d (v_agree_on h) w hw)
  | init | gen | init4 | gen4 =>
    obtain ⟨hk, hn, hctr⟩ := key_eq_of_agree h
    cases r <;> simp [mayWrite, fileOf] at hr <;>
      simp only [effect, initEffect, blockEffect, init4Effect, block4Effect, advanceCtr, State.rd, hk, hn, hctr]
  | xload | block =>
    have hst : s.st = s'.st := st_eq_of_agree fun r hr => h r (by simp [inReadSet, hr])
    cases r <;> simp [mayWrite, fileOf] at hr <;> simp only [effect, blockEffect, State.rd, hst]
  | dround | serial =>
    have hx : s.x = s'.x := x_eq_of_agree fun r hr => h r (by simp [inReadSet, hr])
    cases r <;> simp [mayWrite, fileOf] at hr
    simp only [effect, State.rd, hx]
  | feedfwd =>
    have hx : s.x = s'.x := x_eq_of_agree fun r hr => h r (by simp [inReadSet, hr])
    have hst : s.st = s'.st := st_eq_of_agree fun r hr => h r (by simp [inReadSet, hr])
    cases r <;> simp [mayWrite, fileOf] at hr
    simp only [effect, State.rd, hx, hst]
  | vload | block4 =>
    have hvo : s.vo = s'.vo := vo_eq_of_agree fun r hr => h r (by simp [inReadSet, hr])
    cases r <;> simp [mayWrite, fileOf] at hr <;> simp only [effect, block4Effect, State.rd, hvo]
  | vdround | vgather =>
    have hv : s.v = s'.v := v_eq_of_agree fun r hr => h r (by simp [inReadSet, hr])
    cases r <;> simp [mayWrite, fileOf] at hr
    simp only [effect, State.rd, hv]
  | vfeedfwd =>
    have hv : s.v = s'.v := v_eq_of_agree fun r hr => h r (by simp [inReadSet, hr])
    have hvo : s.vo = s'.vo := vo_eq_of_agree fun r hr => h r (by simp [inReadSet, hr])
    cases r <;> simp [mayWrite, fileOf] at hr
    simp only [effect, State.rd, hv, hvo]

/-- The check of the read set depends on the read set alone (30 R80). -/
theorem readList_valid_congr {i : Instr} {s s' : State} (h : ∀ r, inReadSet i r = true → s.rd r = s'.rd r) :
    (readList i).all s.valid = (readList i).all s'.valid := by
  rw [Bool.eq_iff_iff, List.all_eq_true, List.all_eq_true]
  exact forall₂_congr fun r hr => by rw [State.valid, State.valid, h r ((mem_readList i r).mp hr)]

/-- A recorded fault makes FAULT = 1 (60 R223). -/
theorem raise_status_ne_none (s : State) (e : Cause) (info : Word) : (s.raise e info).status ≠ none := by
  rcases raise_cases s e info with ⟨hf, hr⟩ | ⟨_, hr⟩ <;> rw [hr]
  · exact Option.isSome_iff_ne_none.mp hf
  · exact Option.some_ne_none e

/-- What a fault leaves in STATUS and FINFO depends on these two alone (60 R223). -/
theorem raise_congr {s s' : State} (hstatus : s.status = s'.status) (hfinfo : s.finfo = s'.finfo) (e : Cause)
    (info : Word) :
    (s.raise e info).status = (s'.raise e info).status ∧ (s.raise e info).finfo = (s'.raise e info).finfo := by
  have hfaulted : s.faulted = s'.faulted := congrArg Option.isSome hstatus
  unfold State.raise
  rw [hfaulted]
  split
  · exact ⟨hstatus, hfinfo⟩
  · exact ⟨rfl, rfl⟩

/-- Settles O27: the checks of 30 R80 come out alike, and where both commands execute their effects agree. -/
theorem commandsDependOnlyOnTheirReadSet : Obligations.CommandsDependOnlyOnTheirReadSet := by
  intro i s s' t t' hcap hstatus hfinfo hreads ht ht'
  have hfaulted : s.faulted = s'.faulted := congrArg Option.isSome hstatus
  have hvalid := readList_valid_congr hreads
  rw [exec_eq_issue] at ht ht'
  unfold issue at ht ht'
  rw [hfaulted, hcap, hvalid] at ht
  split_ifs at ht ht' with hf <;> cases ht <;> cases ht'
  · refine ⟨hstatus, hfinfo, fun h0 => ?_⟩
    simp [State.faulted, ← hstatus, h0] at hf
  · obtain ⟨hs, hi⟩ := raise_congr hstatus hfinfo .illegalCmd (encode i)
    exact ⟨hs, hi, fun h0 => absurd h0 (raise_status_ne_none _ _ _)⟩
  · obtain ⟨_, hs, hi, _, _⟩ := effect_keeps i s
    obtain ⟨_, hs', hi', _, _⟩ := effect_keeps i s'
    exact ⟨by rw [hs, hs', hstatus], by rw [hi, hi', hfinfo], fun _ => rd_effect_congr i hreads⟩
  · obtain ⟨hs, hi⟩ := raise_congr hstatus hfinfo .uninitOperand (encode i)
    exact ⟨hs, hi, fun h0 => absurd h0 (raise_status_ne_none _ _ _)⟩

/-! ### An effect leaves a value in what it writes -/

/-- An ARX step on valid words leaves the words it names valid (10 R22). -/
theorem arxStep_valid_on {x : Vector DataWord 16} {is : List Index} {a b d : Index} (ha : a ∈ is) (hb : b ∈ is)
    (hd : d ∈ is) (n : Nat) (h : ∀ j ∈ is, x[j] ≠ none) : ∀ j ∈ is, (arxStep dataOps x a b d n)[j] ≠ none :=
  fun j hj => arxStep_valid x a b d j n (h a ha) (h b hb) (h d hd) (h j hj)

theorem rotlStep_valid {x : Vector DataWord 16} {a : Index} (n : Nat) (h : x[a] ≠ none) :
    (rotlStep dataOps x a n)[a] ≠ none := by
  simpa [rotlStep, dataOps, DataWord.rotl] using h

theorem quarterRound_valid {x : Vector DataWord 16} {a b c d : Index} (h : ∀ j ∈ [a, b, c, d], x[j] ≠ none) :
    ∀ j ∈ [a, b, c, d], (quarterRound dataOps x a b c d)[j] ≠ none := by
  obtain ⟨ha, hb, hc, hd⟩ : a ∈ [a, b, c, d] ∧ b ∈ [a, b, c, d] ∧ c ∈ [a, b, c, d] ∧ d ∈ [a, b, c, d] := by simp
  have h1 := arxStep_valid_on ha hb hd 16 h
  have h2 := arxStep_valid_on hc hd hb 12 h1
  have h3 := arxStep_valid_on ha hb hd 8 h2
  exact arxStep_valid_on hc hd hb 7 h3

theorem laneOf_rotlStep (v : Vector (Vector DataWord 4) 16) (a : Index) (n : Nat) (l : Lane) :
    laneOf (rotlStep vecOps v a n) l = rotlStep dataOps (laneOf v l) a n :=
  rotlStep_map (lane_respects dataOps l) v a n

theorem gather_liftLanes_eq (v : Vector (Vector Word 4) 16) : gather (liftLanes v) = liftLanes (gather v) :=
  gather_liftLanes v

section Valid

/-! The words of a read set hold values when a command executes: the named ones, or those of a file read whole. -/

variable {s : State} {is : List Index}

theorem x_valid_on (h : ∀ r, isXOf is r = true → s.rd r ≠ none) : ∀ j ∈ is, s.x[j] ≠ none :=
  fun j hj => h (.x j) (isXOf_iff.mpr ⟨j, hj, rfl⟩)

theorem lane_valid_on (l : Lane) (h : ∀ r, isVOf is r = true → s.rd r ≠ none) : ∀ w ∈ is, (laneOf s.v l)[w] ≠ none :=
  fun w hw => laneOf_get s.v w l ▸ h (.v w l) (isVOf_iff.mpr ⟨w, hw, l, rfl⟩)

theorem st_eq_lift (h : ∀ r, fileOf r = .st → s.rd r ≠ none) : ∃ w, s.st = lift w :=
  exists_lift _ fun j => h (.st j) rfl

theorem x_eq_lift (h : ∀ r, fileOf r = .x → s.rd r ≠ none) : ∃ w, s.x = lift w :=
  exists_lift _ fun j => h (.x j) rfl

theorem v_eq_liftLanes (h : ∀ r, fileOf r = .v → s.rd r ≠ none) : ∃ w, s.v = liftLanes w :=
  exists_liftLanes _ fun w l => h (.v w l) rfl

theorem vo_eq_liftLanes (h : ∀ r, fileOf r = .vo → s.rd r ≠ none) : ∃ w, s.vo = liftLanes w :=
  exists_liftLanes _ fun w l => h (.vo w l) rfl

/-- K, N and CTR, which INIT, GEN, INIT4 and GEN4 read. -/
theorem key_eq_lift (h : ∀ r, inReadSet .init r = true → s.rd r ≠ none) :
    ∃ k n c, s.k = lift k ∧ s.n = lift n ∧ s.ctr = some c := by
  obtain ⟨k, hk⟩ := exists_lift s.k fun j => h (.k j) rfl
  obtain ⟨n, hn⟩ := exists_lift s.n fun j => h (.n j) rfl
  obtain ⟨c, hc⟩ := Option.ne_none_iff_exists'.mp (h .ctr rfl)
  exact ⟨k, n, c, hk, hn, hc⟩

end Valid

/-- With its read set valid an effect leaves a value in every register its rule writes (10 R22; 60 R226). -/
theorem rd_effect_ne_none {i : Instr} {s : State} (h : ∀ r, inReadSet i r = true → s.rd r ≠ none) {r : Reg}
    (hr : mayWrite i r = true) : (effect i s).rd r ≠ none := by
  cases i with
  | arx a b d rot =>
    obtain ⟨j, hj, rfl⟩ := isXOf_iff.mp hr
    exact arxStep_valid_on (is := [a, b, d]) (by simp) (by simp) (by simp) _ (x_valid_on h) j (by grind)
  | rotl a rot =>
    obtain ⟨j, hj, rfl⟩ := isXOf_iff.mp hr
    obtain rfl := List.mem_singleton.mp hj
    exact rotlStep_valid _ (x_valid_on h j hj)
  | qr a b c d =>
    obtain ⟨j, hj, rfl⟩ := isXOf_iff.mp hr
    exact quarterRound_valid (x_valid_on h) j hj
  | varx a b d rot =>
    obtain ⟨w, hw, l, rfl⟩ := isVOf_iff.mp hr
    simp only [effect, State.rd]
    rw [← laneOf_get, laneOf_arxStep]
    exact arxStep_valid_on (is := [a, b, d]) (by simp) (by simp) (by simp) _ (lane_valid_on l h) w (by grind)
  | vrotl a rot =>
    obtain ⟨w, hw, l, rfl⟩ := isVOf_iff.mp hr
    obtain rfl := List.mem_singleton.mp hw
    simp only [effect, State.rd]
    rw [← laneOf_get, laneOf_rotlStep]
    exact rotlStep_valid _ (lane_valid_on l h w hw)
  | vqr a b c d =>
    obtain ⟨w, hw, l, rfl⟩ := isVOf_iff.mp hr
    simp only [effect, State.rd]
    rw [← laneOf_get, laneOf_quarterRound]
    exact quarterRound_valid (lane_valid_on l h) w hw
  | init | gen =>
    obtain ⟨k, n, c, hk, hn, hc⟩ := key_eq_lift h
    cases r <;> simp [mayWrite, fileOf] at hr <;>
      simp [effect, initEffect, blockEffect, advanceCtr, State.rd, hk, hn, hc, initFn_lift, blockWords_lift,
        DataWord.add, -Fin.getElem_fin, lift_get_ne]
  | init4 | gen4 =>
    obtain ⟨k, n, c, hk, hn, hc⟩ := key_eq_lift h
    obtain ⟨o, ho, _⟩ := initLanes_lift k n c
    cases r <;> simp [mayWrite, fileOf] at hr <;>
      simp [effect, init4Effect, block4Effect, advanceCtr, State.rd, hk, hn, hc, ho, blockWords_liftLanes,
        gather_liftLanes_eq, DataWord.add, -Fin.getElem_fin, liftLanes_get_ne]
  | xload | block =>
    obtain ⟨st, hst⟩ := st_eq_lift fun r hr => h r (by simp [inReadSet, hr])
    cases r <;> simp [mayWrite, fileOf] at hr <;>
      simp [effect, blockEffect, State.rd, hst, blockWords_lift, -Fin.getElem_fin, lift_get_ne]
  | dround | serial =>
    obtain ⟨x, hx⟩ := x_eq_lift fun r hr => h r (by simp [inReadSet, hr])
    cases r <;> simp [mayWrite, fileOf] at hr
    simp [effect, State.rd, hx, doubleRound_lift, -Fin.getElem_fin, lift_get_ne]
  | feedfwd =>
    obtain ⟨x, hx⟩ := x_eq_lift fun r hr => h r (by simp [inReadSet, hr])
    obtain ⟨st, hst⟩ := st_eq_lift fun r hr => h r (by simp [inReadSet, hr])
    cases r <;> simp [mayWrite, fileOf] at hr
    simp [effect, State.rd, hx, hst, feedForward_lift, -Fin.getElem_fin, lift_get_ne]
  | vload | block4 =>
    obtain ⟨vo, hvo⟩ := vo_eq_liftLanes fun r hr => h r (by simp [inReadSet, hr])
    cases r <;> simp [mayWrite, fileOf] at hr <;>
      simp [effect, block4Effect, State.rd, hvo, blockWords_liftLanes, gather_liftLanes_eq, -Fin.getElem_fin,
        liftLanes_get_ne]
  | vdround | vgather =>
    obtain ⟨v, hv⟩ := v_eq_liftLanes fun r hr => h r (by simp [inReadSet, hr])
    cases r <;> simp [mayWrite, fileOf] at hr
    simp [effect, State.rd, hv, doubleRound_liftLanes, gather_liftLanes_eq, -Fin.getElem_fin, liftLanes_get_ne]
  | vfeedfwd =>
    obtain ⟨v, hv⟩ := v_eq_liftLanes fun r hr => h r (by simp [inReadSet, hr])
    obtain ⟨vo, hvo⟩ := vo_eq_liftLanes fun r hr => h r (by simp [inReadSet, hr])
    cases r <;> simp [mayWrite, fileOf] at hr
    simp [effect, State.rd, hv, hvo, feedForward_liftLanes, -Fin.getElem_fin, liftLanes_get_ne]

/-- A command that executes clears no valid bit (10 R22). -/
theorem rd_effect_keeps_valid {i : Instr} {s : State} (h : Ready i s) {r : Reg} (hr : s.rd r ≠ none) :
    (effect i s).rd r ≠ none := by
  obtain ⟨_, _, hreads⟩ := h
  cases hw : mayWrite i r with
  | true => exact rd_effect_ne_none hreads hw
  | false => rwa [rd_effect_of_not_mayWrite i s r hw]

/-- Settles O22: a bus write sets its word's valid bit, and a command keeps those outside what it writes and sets those
of what it writes. -/
theorem validBitsAreNeverCleared : Obligations.ValidBitsAreNeverCleared := by
  refine ⟨fun s t hn ht r hr => ?_, fun i s t r hready ht hw => ?_⟩
  · rcases step_effects s t hn ht with ⟨r', v, rest, _, _, _, rfl⟩ | ⟨w, i, rest, _, _, he⟩ | ⟨_, hrd, _⟩
    · by_cases hrr : r = r'
      · rw [hrr, rd_wr_same]; exact Option.some_ne_none v
      · rwa [rd_wr_ne _ _ _ _ hrr, rd_with_pending]
    · rw [← rd_with_pending s rest r] at hr
      rcases exec_rd_cases he with hrd | ⟨hready, rfl⟩
      · rwa [hrd]
      · exact rd_effect_keeps_valid hready hr
    · rwa [hrd]
  · obtain ⟨_, _, hreads⟩ := id hready
    obtain rfl := Host.Outcome.next.inj ((exec_of_ready i s hready).symm.trans ht)
    exact rd_effect_ne_none hreads hw

end Sys2Proof.Machine
end

section
/-! PROOF. The control words, the state after reset, and who may move K, N, CTR and CAP (spec 10 R23 to R25, R35, R36,
R41; 60 R238). -/

namespace Sys2Proof.Machine

/-! ### Control words and reset -/

theorem capWord_congr {s t : State} (h : t.hasLane4 = s.hasLane4) : t.capWord = s.capWord := by
  rw [State.capWord, State.capWord, h]

/-- STATUS with a cause recorded (10 R36). -/
theorem statusWord_of_some {s : State} {c : Cause} (h : s.status = some c) :
    s.statusWord = c.code.setWidth 32 <<< 4 ||| 1 := by
  rw [State.statusWord, h]

theorem statusWord_of_none {s : State} (h : s.status = none) : s.statusWord = 0 := by
  rw [State.statusWord, h]

/-- Settles O17, by the build for CAP and by the recorded cause for STATUS. -/
theorem controlWordsHaveTheirFields : Obligations.ControlWordsHaveTheirFields := by
  refine ⟨fun s => ?_, fun s => ?_, fun _ => statusWord_of_some, fun _ => statusWord_of_some,
    fun _ => statusWord_of_some, fun _ => statusWord_of_some⟩
  · unfold State.capWord
    cases s.hasLane4 <;> decide
  · cases hs : s.status with
    | none => rw [statusWord_of_none hs]; decide
    | some c =>
      rw [statusWord_of_some hs]
      cases c <;> decide

/-- Settles O19: the fields of the reset state. -/
theorem resetStateIsTheTable : Obligations.ResetStateIsTheTable :=
  fun b => ⟨rd_resetWith b, rfl, rfl, rfl⟩

/-- The reset state of a build has the invariant (10 R41). -/
theorem inv_resetWith (b : Bool) : Inv (State.resetWith b) := inv_resetCore (State.resetWith b)

/-- Settles O21: no word is valid and no fault is recorded, with or without the generator. -/
theorem resetHasTheInvariant : Obligations.ResetHasTheInvariant :=
  ⟨inv_resetWith _, inv_resetWith⟩

/-! ### What can change a register -/

/-- A step but a reset that changes a register is the bus write of it, or the CMD write of a command that executes and
whose rule writes it (10 R21; 20 R56). -/
theorem step_changes_reg {s t : State} {r : Reg} (hn : NoReset s) (ht : step s = .next t) (hr : t.rd r ≠ s.rd r) :
    (∃ v rest, s.pending = .write (BusReg.data r).offset 4 v :: rest ∧ t.rd r = some v) ∨
    (∃ w i rest, s.pending = .write 0x008 4 w :: rest ∧ decode w = some i ∧ mayWrite i r = true ∧
      Ready i { s with pending := rest } ∧ t = effect i { s with pending := rest }) := by
  rcases step_effects s t hn ht with ⟨r', v, rest, hp, _, _, rfl⟩ | ⟨w, i, rest, hp, hd, he⟩ | ⟨_, hrd, _⟩
  · by_cases hrr : r = r'
    · exact .inl ⟨v, rest, hrr ▸ hp, by rw [hrr, rd_wr_same]⟩
    · rw [rd_wr_ne _ _ _ _ hrr, rd_with_pending] at hr
      exact absurd rfl hr
  · rcases exec_rd_cases he with hrd | ⟨hready, rfl⟩
    · exact absurd ((hrd r).trans (rd_with_pending s rest r)) hr
    · refine .inr ⟨w, i, rest, hp, hd, ?_, hready, rfl⟩
      by_contra hw
      exact hr ((rd_effect_of_not_mayWrite i _ r (Bool.eq_false_iff.mpr hw)).trans (rd_with_pending s rest r))
  · exact absurd (hrd r) hr

/-- The row of a command without operands fixes every bit (30 R85). -/
theorem row_of_plain_command : ∀ i ∈ plainCommands, ∀ row ∈ opcodeMap, ∀ w, row.build w = i →
    row.mask = BitVec.allOnes 32 ∧ row.pattern = encode i := by
  simp [plainCommands, opcodeMap, scalarRows, laneRows, encode, enc, Instr.opcode]

/-- A command without operands has one word (30 R88). -/
theorem eq_encode_of_decode_plain {w : Word} {i : Instr} (hi : i ∈ plainCommands) (h : decode w = some i) :
    w = encode i := by
  obtain ⟨row, hrow, hw, hb⟩ := row_of_decode w i h
  obtain ⟨hmask, hpattern⟩ := row_of_plain_command i hi row hrow w hb.symm
  rwa [hmask, BitVec.and_allOnes, hpattern] at hw

/-- Settles O24: of the commands only GEN and GEN4 write CTR, and each has one word. -/
theorem counterMovesOnlyByWriteOrGenerator : Obligations.CounterMovesOnlyByWriteOrGenerator := by
  intro s t hn ht hctr
  rcases step_changes_reg (r := .ctr) hn ht hctr with hwrite | ⟨w, i, rest, hp, hd, hw, ⟨_, _, hreads⟩, rfl⟩
  · exact .inl hwrite
  · cases i with
    | gen =>
      obtain rfl := eq_encode_of_decode_plain (i := .gen) (by decide) hd
      obtain ⟨c, hc⟩ := Option.ne_none_iff_exists'.mp (hreads .ctr rfl)
      exact .inr (.inl ⟨c, rest, hc, hp, congrArg (DataWord.add · (some 1)) hc⟩)
    | gen4 =>
      obtain rfl := eq_encode_of_decode_plain (i := .gen4) (by decide) hd
      obtain ⟨c, hc⟩ := Option.ne_none_iff_exists'.mp (hreads .ctr rfl)
      exact .inr (.inr ⟨c, rest, hc, hp, congrArg (DataWord.add · (some 4)) hc⟩)
    | _ => cases hw

/-- A command keeps CAP (10 R35). -/
theorem exec_hasLane4 {i : Instr} {s t : State} (h : exec i s = .next t) : t.hasLane4 = s.hasLane4 := by
  obtain ⟨_, hcap, _⟩ := commandsWriteOnlyTheirFiles i s t h
  exact hcap

/-- The step of a reset (70 R250). -/
theorem step_of_reset {s : State} {rest : List HostAction} (hp : s.pending = .reset :: rest) :
    step s = .next ({ s with pending := rest } : State).resetCore := by
  unfold step hostTurn
  rw [hp]
  rfl

/-- No step changes CAP (10 R35). -/
theorem step_hasLane4 {s t : State} (ht : step s = .next t) : t.hasLane4 = s.hasLane4 := by
  by_cases hn : NoReset s
  · rcases step_effects s t hn ht with ⟨r, v, rest, _, _, _, rfl⟩ | ⟨w, i, rest, _, _, he⟩ | ⟨hcap, _⟩
    · exact wr_hasLane4 ..
    · exact (exec_hasLane4 he :)
    · exact hcap
  · obtain ⟨rest, hp⟩ : ∃ rest, s.pending = .reset :: rest := by simpa [NoReset] using hn
    obtain rfl := Host.Outcome.next.inj ((step_of_reset hp).symm.trans ht)
    rfl

/-- No command's rule writes K or N (10 R23, R24). -/
theorem mayWrite_key_nonce (i : Instr) {r : Reg} (hr : fileOf r = .k ∨ fileOf r = .n) : mayWrite i r = false := by
  cases r <;> simp [fileOf] at hr <;> cases i <;> rfl

/-- Settles O25: no command writes K or N, and every step keeps CAP. -/
theorem keyNonceAndCapabilityAreTheHosts : Obligations.KeyNonceAndCapabilityAreTheHosts := by
  refine ⟨fun s t ht => ⟨step_hasLane4 ht, capWord_congr (step_hasLane4 ht)⟩, fun s t r hf hn ht hr => ?_⟩
  rcases step_changes_reg hn ht hr with hwrite | ⟨_, i, _, _, _, hw, _⟩
  · exact hwrite
  · cases (mayWrite_key_nonce i hf).symm.trans hw

end Sys2Proof.Machine
end

section
/-! PROOF. The register map, and what an access to each of its places does (spec 20 R51 to R57; 10 R22, R32). -/

namespace Sys2Proof.Machine

/-! ### The reserved ranges (20 R51) -/

theorem scalarRegAt_eq_none {q : Nat} (h : 4 ≤ q ∧ q < 8 ∨ 20 ≤ q ∧ q < 32 ∨ 80 ≤ q) : scalarRegAt q = none := by
  simp (disch := omega) only [scalarRegAt, if_neg, dif_neg]

theorem laneRegAt_eq_none {q : Nat} (h : 320 ≤ q) : laneRegAt q = none := by
  simp (disch := omega) only [laneRegAt, dif_neg]

theorem regAt_of_scalar (b : Bool) {off : Offset} (h : off.toNat < 0x200) :
    regAt b off = scalarRegAt (off.toNat / 4) := if_pos (by omega)

theorem regAt_of_lane (b : Bool) {off : Offset} (h : 0x200 ≤ off.toNat) :
    regAt b off = if b then laneRegAt (off.toNat / 4) else none := if_neg (by omega)

/-- A build without the 4-lane generator maps nothing above the scalar part (20 R51). -/
theorem regAt_false_eq_none {off : Offset} (h : 0x200 ≤ off.toNat) : regAt false off = none := regAt_of_lane false h

/-- No build maps a reserved offset (20 R51). -/
theorem regAt_reserved_eq_none (b : Bool) {off : Offset}
    (h : (0x010 ≤ off.toNat ∧ off.toNat < 0x020) ∨ (0x050 ≤ off.toNat ∧ off.toNat < 0x080) ∨
      (0x140 ≤ off.toNat ∧ off.toNat < 0x200) ∨ 0x500 ≤ off.toNat) : regAt b off = none := by
  by_cases hlane : 0x200 ≤ off.toNat
  · rw [regAt_of_lane b hlane, laneRegAt_eq_none (by omega), ite_self]
  · rw [regAt_of_scalar b (by omega), scalarRegAt_eq_none (by omega)]

/-- The read-only registers (20 R51, R54). -/
theorem readOnly_iff (r : BusReg) : r.readOnly = true ↔
    r ∈ [.cap, .status, .finfo] ∨ (∃ j, r = .data (.ks j)) ∨ ∃ l j, r = .data (.ks4 l j) := by
  cases r with
  | data r => cases r <;> simp [BusReg.readOnly]
  | _ => simp [BusReg.readOnly]

/-- Settles O12: the table's offsets are those of `BusReg.offset`, where each register is mapped. -/
theorem registerMapIsTheTable : Obligations.RegisterMapIsTheTable := by
  refine ⟨by decide, fun b j => regAt_offset_scalar b (.k j) rfl, fun b j => regAt_offset_scalar b (.n j) rfl,
    fun b i => ⟨regAt_offset_scalar b (.st i) rfl, regAt_offset_scalar b (.x i) rfl, regAt_offset_scalar b (.ks i) rfl⟩,
    fun w l => ⟨regAt_offset_lane (.v w l) rfl, regAt_offset_lane (.vo w l) rfl, regAt_offset_lane (.ks4 l w) rfl⟩,
    offset_of_regAt, fun b _ => regAt_reserved_eq_none b, fun _ => regAt_false_eq_none, readOnly_iff⟩

/-! ### Accesses that raise BUS_ERROR (20 R52 to R54) -/

/-- An access reaches no register when its size is wrong, its offset misaligned or nothing is mapped there. -/
theorem target_eq_none_iff {s : State} {off : Offset} {n : Nat} :
    target s off n = none ↔ n ≠ 4 ∨ off.extractLsb' 0 2 ≠ 0 ∨ regAt s.hasLane4 off = none :=
  (ite_eq_left_iff.trans or_iff_not_imp_left.symm).trans or_assoc

/-- At a register's offset there is that register or, for a 4-lane one of a build without it, nothing (20 R51). -/
theorem target_offset (s : State) (b : BusReg) : target s b.offset 4 = some b ∨ target s b.offset 4 = none := by
  cases b with
  | data r =>
    by_cases hp : Present s r
    · exact .inl (target_reg s r hp)
    · obtain ⟨hl, hb⟩ : r.isLane = true ∧ s.hasLane4 = false := by simpa [Present] using hp
      exact .inr (target_eq_none_iff.mpr (.inr (.inr (hb ▸ regAt_offset_absent r hl))))
  | _ =>
    left
    rw [target_of_legal s _ (by decide)]
    cases s.hasLane4 <;> rfl

/-- A read that reaches no register or the write-only CMD gets an error response (20 R52 to R54). -/
theorem memRead_raises {s : State} {off : Offset} {n : Nat} (h : target s off n = none ∨ target s off n = some .cmd) :
    memRead off n s = (s.raise .busError (accessInfo false off), .busErrorResponse) := by
  unfold memRead
  rcases h with h | h <;> rw [h]

/-- A write that reaches no register or a read-only one raises BUS_ERROR (20 R52 to R54). -/
theorem memWrite_raises {s : State} {off : Offset} {n : Nat} (v : Word)
    (h : ∀ b, target s off n = some b → b.readOnly = true) :
    memWrite off n v s = .next (s.raise .busError (accessInfo true off)) := by
  rcases memWrite_cases off n v s with ⟨ht, _⟩ | ⟨r, ht, hw, _⟩ | ⟨_, hm⟩
  · cases h _ ht
  · cases hw.symm.trans (h _ ht)
  · exact hm

theorem memWrite_readOnly (s : State) (b : BusReg) (v : Word) (hb : b.readOnly = true) :
    memWrite b.offset 4 v s = .next (s.raise .busError (accessInfo true b.offset)) := by
  refine memWrite_raises v fun b' h => ?_
  rcases target_offset s b with ht | ht <;> cases ht.symm.trans h
  exact hb

theorem records_busError_read (s : State) (off : Offset) :
    Records s .busError (off.setWidth 32) (s.raise .busError (accessInfo false off)) :=
  accessInfo_read off ▸ records_raise s _ _

theorem records_busError_write (s : State) (off : Offset) :
    Records s .busError (0x80000000 ||| off.setWidth 32) (s.raise .busError (accessInfo true off)) :=
  accessInfo_write off ▸ records_raise s _ _

/-- Settles O13, by the register the access reaches: none, a read-only one, or CMD. -/
theorem badAccessesRaiseBusError : Obligations.BadAccessesRaiseBusError := by
  have readOnly : ∀ (s : State) (b : BusReg) (v : Word), b.readOnly = true → ∃ t, memWrite b.offset 4 v s = .next t ∧
      Records s .busError (0x80000000 ||| b.offset.setWidth 32) t :=
    fun s b v hb => ⟨_, memWrite_readOnly s b v hb, records_busError_write s _⟩
  refine ⟨fun s off n v h => ?_, fun s off v h => ?_, fun s j v => readOnly s (.data (.ks j)) v rfl,
    fun s l j v => readOnly s (.data (.ks4 l j)) v rfl,
    fun s => ⟨_, memRead_raises (.inr (target_cmd s)), records_busError_read s 0x008⟩⟩
  · have unreached : target s off n = none := target_eq_none_iff.mpr h
    exact ⟨⟨_, memRead_raises (.inl unreached), records_busError_read s off⟩,
      ⟨_, memWrite_raises v fun b hb => (by cases unreached.symm.trans hb), records_busError_write s off⟩⟩
  · obtain ⟨b, hb, rfl⟩ : ∃ b : BusReg, b.readOnly = true ∧ b.offset = off := by
      simp only [List.mem_cons, List.not_mem_nil, or_false] at h
      rcases h with rfl | rfl | rfl
      · exact ⟨.cap, rfl, rfl⟩
      · exact ⟨.status, rfl, rfl⟩
      · exact ⟨.finfo, rfl, rfl⟩
    exact readOnly s b v hb

/-! ### Data reads and writes (20 R55 to R57) -/

/-- Writing the value a register holds changes nothing (20 R57). -/
theorem wr_of_rd {s : State} {r : Reg} {v : Word} (h : s.rd r = some v) : s.wr r v = s := by
  cases r <;> simp only [State.rd] at h <;> simp [State.wr, ← h]

theorem present_wr {s : State} {r : Reg} (h : Present s r) (q : Reg) (v : Word) : Present (s.wr q v) r := by
  rwa [Present, wr_hasLane4]

/-- A write of a present writable register stores its value (20 R56). -/
theorem memWrite_data {s : State} {r : Reg} (v : Word) (hp : Present s r) (hw : (BusReg.data r).readOnly = false) :
    memWrite (BusReg.data r).offset 4 v s = .next (s.wr r v) := by
  simp [memWrite, target_reg s r hp, hw]

/-- A read of a present register that holds a value answers it (20 R55). -/
theorem memRead_data {s : State} {r : Reg} {w : Word} (hp : Present s r) (hr : s.rd r = some w) :
    memRead (BusReg.data r).offset 4 s = (s, .data w) := by
  simp [memRead, target_reg s r hp, hr]

/-- A read that answers data leaves the core as it was (20 R57). -/
theorem eq_of_memRead_data {s t : State} {off : Offset} {n : Nat} {w : Word} (h : memRead off n s = (t, .data w)) :
    t = s := by
  rcases memRead_cases off n s with ⟨_, hm⟩ | ⟨_, hm⟩ | ⟨_, _, _, hm⟩ <;> cases hm.symm.trans h
  rfl

/-- Settles O15: the bus write is `State.wr`, whose rules give the frame, the read-back and idempotence. -/
theorem writesSetOneRegister : Obligations.WritesSetOneRegister := by
  refine ⟨fun s r v hp hw => ⟨s.wr r v, memWrite_data v hp hw, rd_wr_same s r v, fun q hq => rd_wr_ne s r q v hq,
    wr_hasLane4 s r v, wr_status s r v, wr_finfo s r v, wr_pending s r v, wr_responses s r v, ?_, ?_⟩,
    fun s t off n w => eq_of_memRead_data⟩
  · exact memRead_data (present_wr hp r v) (rd_wr_same s r v)
  · rw [memWrite_data v (present_wr hp r v) hw, wr_of_rd (rd_wr_same s r v)]

end Sys2Proof.Machine
end

section
/-! PROOF. A step is the host's next action, and the CMD write of a command's word runs it (spec 20 R58, R63; 30 R80;
60 R242). -/

namespace Sys2Proof.Machine

theorem step_of_idle {s : State} (hp : s.pending = []) : step s = .next s := by
  unfold step hostTurn
  rw [hp]

theorem step_of_action {s : State} {a : HostAction} {rest : List HostAction} (hp : s.pending = a :: rest) :
    step s = hostAct a { s with pending := rest } := by
  unfold step hostTurn
  rw [hp]

/-- The step of a bus write (20 R56, R58). -/
theorem step_of_write {s : State} {off : Offset} {n : Nat} {v : Word} {rest : List HostAction}
    (hp : s.pending = .write off n v :: rest) : step s = memWrite off n v { s with pending := rest } :=
  step_of_action hp

/-- The read itself answers nothing: the step appends its answer (20 R55). -/
theorem memRead_responses (off : Offset) (n : Nat) (s : State) : (memRead off n s).1.responses = s.responses := by
  rcases memRead_cases off n s with ⟨_, hm⟩ | ⟨_, hm⟩ | ⟨_, _, _, hm⟩ <;> rw [hm]
  · exact raise_responses ..
  · exact raise_responses ..

/-- The step of a bus read (20 R55, R58). -/
theorem step_of_read {s t : State} {r : Response} {off : Offset} {n : Nat} {rest : List HostAction}
    (hp : s.pending = .read off n :: rest) (hm : memRead off n { s with pending := rest } = (t, r)) :
    step s = .next { t with responses := s.responses ++ [r] } := by
  have kept : t.responses = s.responses := by simpa [hm] using memRead_responses off n { s with pending := rest }
  rw [step_of_action hp, hostAct, hm, kept]

/-- Settles O9: the step is the CMD write, and presenting a command's word is that command. -/
theorem stepRunsTheDecodedCommand : Obligations.StepRunsTheDecodedCommand := by
  have run : ∀ (s : State) (w : Word) (i : Instr) (rest : List HostAction), s.pending = .write 0x008 4 w :: rest →
      decode w = some i → step s = exec i { s with pending := rest } := fun s w i rest hp hd => by
    rw [step_of_write hp, memWrite_cmd, command_of_decode _ w i hd]
  exact ⟨run, fun s w i hd => run (s.withFetchWord 32 w) _ i s.pending rfl hd⟩

/-- Settles O10, by the kinds of host action. -/
theorem stepPerformsTheNextAccess : Obligations.StepPerformsTheNextAccess := by
  refine ⟨fun _ => step_of_idle, fun s off n rest hp => ?_, fun _ _ _ _ _ => step_of_write⟩
  obtain ⟨t, r, hm⟩ : ∃ t r, memRead off n { s with pending := rest } = (t, r) := ⟨_, _, Prod.mk.eta.symm⟩
  exact ⟨t, r, hm, step_of_read hp hm⟩

end Sys2Proof.Machine
end

section
/-! PROOF. The encoder and the decoder as numbers: the fields of a word, the one word of every command, and the words
that are none (spec 30 R81, R85, R87, R88). -/

namespace Sys2Proof

/-! ### The fields as numbers (30 R81) -/

/-- A field of a word as a number. -/
theorem toNat_field (w : Word) (at0 len : Nat) : (w.extractLsb' at0 len).toNat = w.toNat / 2 ^ at0 % 2 ^ len := by
  rw [BitVec.extractLsb'_toNat, Nat.shiftRight_eq_div_pow]

theorem val_fieldA (w : Word) : (fieldA w).val = w.toNat / 2 ^ 20 % 2 ^ 4 := toNat_field w 20 4
theorem val_fieldB (w : Word) : (fieldB w).val = w.toNat / 2 ^ 16 % 2 ^ 4 := toNat_field w 16 4
theorem val_fieldC (w : Word) : (fieldC w).val = w.toNat / 2 ^ 12 % 2 ^ 4 := toNat_field w 12 4
theorem val_fieldD (w : Word) : (fieldD w).val = w.toNat / 2 ^ 8 % 2 ^ 4 := toNat_field w 8 4

/-- A field is 0 exactly when its number is. -/
theorem field_eq_zero_iff {w : Word} {at0 len : Nat} : w.extractLsb' at0 len = 0 ↔ w.toNat / 2 ^ at0 % 2 ^ len = 0 := by
  rw [← toNat_field]
  exact BitVec.toNat_inj.symm

/-- A word with RSV 0 is the sum of its other fields (30 R81). -/
theorem toNat_eq_fields {w : Word} (hrsv : w.extractLsb' 2 6 = 0) :
    w.toNat = (w.extractLsb' 24 8).toNat * 2 ^ 24 + (fieldA w).val * 2 ^ 20 + (fieldB w).val * 2 ^ 16
      + (fieldC w).val * 2 ^ 12 + (fieldD w).val * 2 ^ 8 + (w.extractLsb' 0 2).toNat := by
  have := field_eq_zero_iff.mp hrsv
  rw [val_fieldA, val_fieldB, val_fieldC, val_fieldD, toNat_field, toNat_field]
  omega

/-- The encoder as a number (30 R87). -/
theorem toNat_enc (op : BitVec 8) (a b c d : Index) (r : BitVec 2) :
    (enc op a b c d r).toNat =
      op.toNat * 2 ^ 24 + a.val * 2 ^ 20 + b.val * 2 ^ 16 + c.val * 2 ^ 12 + d.val * 2 ^ 8 + r.toNat := by
  simpa only [enc_op, fieldA_enc, fieldB_enc, fieldC_enc, fieldD_enc, enc_r]
    using toNat_eq_fields (enc_rsv op a b c d r)

/-- Settles O5: the encoder from the fields of its word, the commands' words by evaluation. -/
theorem encoderPutsFieldsTogether : Obligations.EncoderPutsFieldsTogether :=
  ⟨toNat_enc, fun _ _ _ _ _ => ⟨rfl, rfl, rfl, rfl, rfl, rfl⟩, rfl, rfl, rfl, rfl⟩

/-! ### The one word of a command (30 R85, R87) -/

/-- Settles O3, by the round trip of each command. -/
theorem decodeOfEncodeIsTheCommand : Obligations.DecodeOfEncodeIsTheCommand := decode_encode

/-- A word with RSV 0 is the encoding of its fields (30 R81, R87). -/
theorem enc_fields {w : Word} (hrsv : w.extractLsb' 2 6 = 0) :
    enc (w.extractLsb' 24 8) (fieldA w) (fieldB w) (fieldC w) (fieldD w) (w.extractLsb' 0 2) = w :=
  BitVec.eq_of_toNat_eq ((toNat_enc ..).trans (toNat_eq_fields hrsv).symm)

theorem code_ofCode : ∀ r : BitVec 2, (Rot.ofCode r).code = r := by decide

/-- ROT is one to one on field R (30 R86). -/
theorem code_fieldR (w : Word) : (fieldR w).code = w.extractLsb' 0 2 := code_ofCode _

/-- A word of the form of ARX and VARX: the fields C and RSV are 0 (30 R85). -/
theorem enc_abdr {w : Word} {op : BitVec 8}
    (h : w.extractLsb' 24 8 = op ∧ w.extractLsb' 12 4 = 0 ∧ w.extractLsb' 2 6 = 0) :
    enc op (fieldA w) (fieldB w) 0 (fieldD w) (fieldR w).code = w := by
  obtain ⟨rfl, hc, hrsv⟩ := h
  have hc : fieldC w = 0 := congrArg BitVec.toFin hc
  simpa only [hc, code_fieldR] using enc_fields hrsv

/-- A word of the form of ROTL and VROTL: the fields B, C, D and RSV are 0 (30 R85). -/
theorem enc_ar {w : Word} {op : BitVec 8} (h : w.extractLsb' 24 8 = op ∧ w.extractLsb' 2 18 = 0) :
    enc op (fieldA w) 0 0 0 (fieldR w).code = w := by
  obtain ⟨rfl, h0⟩ := h
  have h0 := field_eq_zero_iff.mp h0
  have hb : fieldB w = 0 := Fin.val_eq_zero_iff.mp (by rw [val_fieldB]; omega)
  have hc : fieldC w = 0 := Fin.val_eq_zero_iff.mp (by rw [val_fieldC]; omega)
  have hd : fieldD w = 0 := Fin.val_eq_zero_iff.mp (by rw [val_fieldD]; omega)
  have hrsv : w.extractLsb' 2 6 = 0 := field_eq_zero_iff.mpr (by omega)
  simpa only [hb, hc, hd, code_fieldR] using enc_fields hrsv

/-- A word of the form of QR and VQR: the fields RSV and R are 0 (30 R85). -/
theorem enc_abcd {w : Word} {op : BitVec 8} (h : w.extractLsb' 24 8 = op ∧ w.extractLsb' 0 8 = 0) :
    enc op (fieldA w) (fieldB w) (fieldC w) (fieldD w) 0 = w := by
  obtain ⟨rfl, h0⟩ := h
  have h0 := field_eq_zero_iff.mp h0
  have hr : w.extractLsb' 0 2 = 0 := field_eq_zero_iff.mpr (by omega)
  have hrsv : w.extractLsb' 2 6 = 0 := field_eq_zero_iff.mpr (by omega)
  simpa only [hr] using enc_fields hrsv

/-- The command a row makes of a word it accepts has that word (30 R85, R87). -/
theorem encode_build : ∀ row ∈ opcodeMap, ∀ w, w &&& row.mask = row.pattern → encode (row.build w) = w := by
  have plain : ∀ (i : Instr) (w : Word), w &&& BitVec.allOnes 32 = encode i → encode i = w :=
    fun i w h => h.symm.trans BitVec.and_allOnes
  simp only [opcodeMap, scalarRows, laneRows, List.cons_append, List.nil_append, List.forall_mem_cons]
  refine ⟨plain .init, plain .xload, fun w h => ?_, fun w h => ?_, fun w h => ?_, plain .dround, plain .feedfwd,
    plain .serial, plain .block, plain .gen, plain .init4, plain .vload, fun w h => ?_, fun w h => ?_, fun w h => ?_,
    plain .vdround, plain .vfeedfwd, plain .vgather, plain .block4, plain .gen4,
    List.forall_mem_nil _⟩
  all_goals obtain ⟨arxRow, varxRow, rotlRow, vrotlRow, qrRow, vqrRow⟩ := row_operands w
  · exact enc_abdr (arxRow.mp h)
  · exact enc_ar (rotlRow.mp h)
  · exact enc_abcd (qrRow.mp h)
  · exact enc_abdr (varxRow.mp h)
  · exact enc_ar (vrotlRow.mp h)
  · exact enc_abcd (vqrRow.mp h)

/-- Settles O4, by the row that accepts the word. -/
theorem encodeOfDecodeIsTheWord : Obligations.EncodeOfDecodeIsTheWord := by
  intro w i h
  obtain ⟨row, hrow, hw, rfl⟩ := row_of_decode w i h
  exact encode_build row hrow w hw

/-- Settles O7: the decoder runs on each word. -/
theorem exampleWordsDecode : Obligations.ExampleWordsDecode := by
  unfold Obligations.ExampleWordsDecode
  decide

/-! ### The words that are commands (30 R88) -/

/-- A word is a command exactly when its opcode is assigned and all that its row does not use is 0: the rows of the map,
by the fields they use (30 R88). -/
theorem decode_ne_none_iff_fields (w : Word) : decode w ≠ none ↔
    (w.extractLsb' 24 8 ∈ [0x01, 0x02, 0x06, 0x07, 0x08, 0x09, 0x0A, 0x11, 0x12, 0x16, 0x17, 0x18, 0x19, 0x1A] ∧
      w.extractLsb' 0 24 = 0) ∨
    (w.extractLsb' 24 8 ∈ [0x03, 0x13] ∧ w.extractLsb' 12 4 = 0 ∧ w.extractLsb' 2 6 = 0) ∨
    (w.extractLsb' 24 8 ∈ [0x04, 0x14] ∧ w.extractLsb' 2 18 = 0) ∨
    (w.extractLsb' 24 8 ∈ [0x05, 0x15] ∧ w.extractLsb' 0 8 = 0) := by
  obtain ⟨arxRow, varxRow, rotlRow, vrotlRow, qrRow, vqrRow⟩ := row_operands w
  rw [decode_ne_none_iff]
  simp only [opcodeMap, scalarRows, laneRows, List.cons_append, List.nil_append, List.exists_mem_cons_iff,
    arxRow, varxRow, rotlRow, vrotlRow, qrRow, vqrRow]
  simp (disch := decide) only [row_plain, BitVec.reduceExtractLsb']
  simp only [BitVec.ofNat_eq_ofNat, List.mem_cons, List.not_mem_nil, or_false, or_and_right, false_and, exists_false]
  exact Iff.of_eq (by ac_rfl)

/-- Field OP of a command's word (30 R85). -/
theorem encode_opcode (i : Instr) : (encode i).extractLsb' 24 8 = i.opcode := by
  cases i <;> exact enc_op ..

/-- The 4-lane commands are those with opcodes from 0x11 (30 R85). -/
theorem isLane_iff_opcode (i : Instr) : i.isLane = true ↔ 0x11 ≤ i.opcode.toNat := by
  cases i <;> simp [Instr.isLane, Instr.opcode]

/-- The word of a command with a 4-lane opcode is that of a 4-lane command (30 R85). -/
theorem isLane_of_encode {i : Instr} (h : 0x11 ≤ (encode i).toNat / 2 ^ 24) : i.isLane = true := by
  have hop := toNat_field (encode i) 24 8
  have hlt := (encode i).isLt
  rw [encode_opcode] at hop
  rw [isLane_iff_opcode, hop]
  omega

end Sys2Proof
end

section
/-! PROOF. The assembler reads the lines that commands are written as, and no others (spec 30 R89). -/

namespace Sys2Proof

/-- A decimal names the index it is the value of (30 R89). -/
theorem indexOf_eq_some_iff {n : Nat} {a : Index} : indexOf n = some a ↔ n = a.val := by
  unfold indexOf
  split
  · rw [Option.some_inj, Fin.ext_iff]
  · simp only [reduceCtorEq, false_iff]; omega

/-- An amount names the rotation select it is the amount of (30 R89). -/
theorem ofAmount_eq_some_iff {n : Nat} {r : Rot} : Rot.ofAmount n = some r ↔ n = r.amount := by
  unfold Rot.ofAmount
  cases r <;> grind [Rot.amount]

/-- The line of a command assembles to that command (30 R89). -/
theorem assemble_disassemble (i : Instr) : assemble (disassemble i) = some i := by
  have index (a : Index) : indexOf a.val = some a := indexOf_eq_some_iff.mpr rfl
  have amount (r : Rot) : Rot.ofAmount r.amount = some r := ofAmount_eq_some_iff.mpr rfl
  cases i with
  | arx | varx | rotl | vrotl | qr | vqr => simp [disassemble, assemble, Instr.mnemonic, index, amount]
  | _ => rfl

/-- A line that assembles to a command is that command's line, by the forms of 30 R89. -/
theorem eq_disassemble_of_assemble {l : AsmLine} {i : Instr} (h : assemble l = some i) : l = disassemble i := by
  have plain : ∀ j ∈ plainCommands, disassemble j = ⟨j.mnemonic, []⟩ := by decide
  obtain ⟨m, ops⟩ := l
  unfold assemble at h
  split at h
  case h_1 hops =>
    obtain rfl : ops = [] := hops
    have hm := List.find?_some h
    rw [plain i (List.mem_of_find?_eq_some h), beq_iff_eq.mp hm]
  case' h_2 | h_3 | h_4 | h_5 | h_6 | h_7 =>
    simp only [Option.pure_def, Option.bind_eq_bind, Option.ite_none_right_eq_some, Option.bind_eq_some_iff,
      indexOf_eq_some_iff, ofAmount_eq_some_iff, Option.some.injEq] at h
  case h_2 hops | h_3 hops =>
    obtain ⟨rfl, a, rfl, r, rfl, rfl⟩ := h
    exact congrArg (AsmLine.mk _) hops
  case h_4 hops | h_5 hops | h_6 hops | h_7 hops =>
    obtain ⟨rfl, a, rfl, b, rfl, c, rfl, d, rfl, rfl⟩ := h
    exact congrArg (AsmLine.mk _) hops
  case h_8 => cases h

/-! ### Legal operands (30 R83, R89) -/

theorem wellFormed_x {n : Nat} : (AsmOperand.x n).WellFormed = true ↔ n ≤ 15 :=
  decide_eq_true_iff.trans Nat.lt_succ_iff

theorem wellFormed_v {n : Nat} : (AsmOperand.v n).WellFormed = true ↔ n ≤ 15 :=
  decide_eq_true_iff.trans Nat.lt_succ_iff

theorem wellFormed_amount {n : Nat} : (AsmOperand.amount n).WellFormed = true ↔ n ∈ [16, 12, 8, 7] := by
  simp [AsmOperand.WellFormed, or_assoc]

/-- The operands of a command's line are legal (30 R89). -/
theorem wellFormed_disassemble (i : Instr) : (disassemble i).WellFormed = true := by
  have x (a : Index) : (AsmOperand.x a.val).WellFormed = true := wellFormed_x.mpr (Nat.le_of_lt_succ a.isLt)
  have v (a : Index) : (AsmOperand.v a.val).WellFormed = true := wellFormed_v.mpr (Nat.le_of_lt_succ a.isLt)
  have amount (r : Rot) : (AsmOperand.amount r.amount).WellFormed = true := by cases r <;> rfl
  cases i with
  | arx | varx | rotl | vrotl | qr | vqr => simp [disassemble, AsmLine.WellFormed, x, v, amount]
  | _ => rfl

/-- Settles O8: assembling is the inverse of writing a line, and every written line is well formed. -/
theorem assemblerReadsItsOwnLines : Obligations.AssemblerReadsItsOwnLines := by
  refine ⟨fun i => ⟨wellFormed_disassemble i, assemble_disassemble i⟩, fun _ _ => eq_disassemble_of_assemble,
    fun _ => wellFormed_x, fun _ => wellFormed_v, fun _ => wellFormed_amount, fun l hl => ?_⟩
  by_contra hne
  obtain ⟨i, hi⟩ := Option.ne_none_iff_exists'.mp hne
  rw [eq_disassemble_of_assemble hi, wellFormed_disassemble i] at hl
  cases hl

end Sys2Proof
end

section
/-! PROOF. The checks of every command in their order, and the words that raise ILLEGAL_CMD (spec 30 R80, R88; 60 R224,
R226, R231, R232). -/

namespace Sys2Proof.Machine

/-! ### The checks of a command, one by one (30 R80; 60 R231, R232) -/

/-- While a fault is recorded a command changes nothing (60 R231). -/
theorem exec_of_faulted {i : Instr} {s : State} (hs : s.status ≠ none) : exec i s = .next s := by
  rcases exec_cases i s with ⟨_, h⟩ | ⟨h, _⟩ | ⟨⟨h, _⟩, _⟩ | ⟨h, _⟩
  · exact h
  all_goals exact absurd h hs

/-- A 4-lane command of a build without the generator is illegal (44 R160). -/
theorem exec_of_not_wellFormed {i : Instr} {s : State} (hs : s.status = none) (hw : i.WellFormed s.hasLane4 = false) :
    exec i s = .next { s with status := some .illegalCmd, finfo := encode i } := by
  rcases exec_cases i s with ⟨h, _⟩ | ⟨_, _, h⟩ | ⟨⟨_, h, _⟩, _⟩ | ⟨_, h, _⟩
  · exact absurd hs h
  · exact h
  all_goals cases hw.symm.trans h

/-- A command does not run with an invalid word in its read set (60 R226). -/
theorem exec_of_uninit {i : Instr} {s : State} (hs : s.status = none) (hw : i.WellFormed s.hasLane4 = true) {r : Reg}
    (hr : inReadSet i r = true) (hinvalid : s.rd r = none) :
    exec i s = .next { s with status := some .uninitOperand, finfo := encode i } := by
  rcases exec_cases i s with ⟨h, _⟩ | ⟨_, h, _⟩ | ⟨⟨_, _, h⟩, _⟩ | ⟨_, _, _, h⟩
  · exact absurd hs h
  · cases hw.symm.trans h
  · exact absurd hinvalid (h r hr)
  · exact h

/-- Settles O28, check by check; the effect of a command that runs records nothing. -/
theorem commandChecksInOrder : Obligations.CommandChecksInOrder := by
  refine ⟨fun _ _ => exec_of_faulted, fun _ _ => exec_of_not_wellFormed,
    fun i s hs hw ⟨r, hr, hinvalid⟩ => exec_of_uninit hs hw hr hinvalid, fun i s hready => ?_⟩
  obtain ⟨_, hstatus, hfinfo, _, _⟩ := effect_keeps i s
  obtain ⟨hs, _, _⟩ := id hready
  exact ⟨_, exec_of_ready i s hready, hstatus.trans hs, hfinfo⟩

/-! ### Illegal words (30 R88; 60 R224) -/

/-- A CMD write of an illegal word (60 R224). -/
theorem command_of_illegal {w : Word} {s : State} (hs : s.status = none) (hd : decode w = none) :
    command w s = .next { s with status := some .illegalCmd, finfo := w } := by
  rcases command_cases w s with ⟨h, _⟩ | ⟨_, _, h⟩ | ⟨i, _, h, _⟩
  · exact absurd hs h
  · exact h
  · cases hd.symm.trans h

/-- A word with a 4-lane opcode is illegal in a build without the generator, decodable or not (44 R160). -/
theorem command_of_lane_opcode {w : Word} {s : State} (hs : s.status = none) (hb : s.hasLane4 = false)
    (hop : 0x11 ≤ w.toNat / 2 ^ 24) :
    command w s = .next { s with status := some .illegalCmd, finfo := w } := by
  cases hd : decode w with
  | none => exact command_of_illegal hs hd
  | some i =>
    obtain rfl := encodeOfDecodeIsTheWord w i hd
    rw [command_of_decode s _ i hd]
    exact exec_of_not_wellFormed hs (by simp [Instr.WellFormed, hb, isLane_of_encode hop])

/-- Settles O6: the words of the opcode map by its rows, the others by what `command` makes of them. -/
theorem illegalWordsRaiseIllegalCmd : Obligations.IllegalWordsRaiseIllegalCmd := by
  refine ⟨decode_ne_none_iff_fields, fun w s hs hd => ?_, fun w s hs hb hop _ => ?_⟩ <;> rw [memWrite_cmd]
  · exact command_of_illegal hs hd
  · exact command_of_lane_opcode hs hb hop

end Sys2Proof.Machine
end

section
/-! PROOF. The words of a command, and the words with its opcode that are none (spec 30 R85, R88; 60 R226). -/

namespace Sys2Proof

/-- An opcode assigned to a command without operands is no other command's (30 R85). -/
theorem eq_of_opcode_eq_plain {i j : Instr} (hi : i ∈ plainCommands) (h : j.opcode = i.opcode) : j = i := by
  have nodup : (plainCommands.map Instr.opcode).Nodup := by decide
  have others : ∀ i ∈ plainCommands, i.opcode ∉ [0x03, 0x04, 0x05, 0x13, 0x14, 0x15] := by decide
  cases j with
  | arx | rotl | qr | varx | vrotl | vqr => exact absurd (h ▸ by simp [Instr.opcode]) (others i hi)
  | _ => exact List.inj_on_of_nodup_map nodup (by decide) hi h

/-- A command without operands has the one word `encode` gives it (30 R88). -/
theorem encodedOnlyAs_plain {i : Instr} (hi : i ∈ plainCommands) : EncodedOnlyAs (encode i) i := by
  refine ⟨decode_encode i, fun u hop hne => ?_⟩
  by_contra hd
  obtain ⟨j, hj⟩ := Option.ne_none_iff_exists'.mp hd
  obtain rfl := encodeOfDecodeIsTheWord u j hj
  rw [encode_opcode, encode_opcode] at hop
  exact hne (congrArg encode (eq_of_opcode_eq_plain hi hop))

/-- ARX and VARX leave the fields C and RSV unused (30 R85, R88). -/
theorem decode_eq_none_of_arx_unused {w : Word} (hop : w.extractLsb' 24 8 = 0x03 ∨ w.extractLsb' 24 8 = 0x13)
    (h : w.extractLsb' 12 4 ≠ 0 ∨ w.extractLsb' 2 6 ≠ 0) : decode w = none := by
  by_contra hd
  have legal := (decode_ne_none_iff_fields w).mp hd
  rcases hop with hop | hop <;> simp [hop] at legal <;> simp [legal] at h

/-- ROTL and VROTL leave the fields B, C, D and RSV unused (30 R85, R88). -/
theorem decode_eq_none_of_rotl_unused {w : Word} (hop : w.extractLsb' 24 8 = 0x04 ∨ w.extractLsb' 24 8 = 0x14)
    (h : w.extractLsb' 2 18 ≠ 0) : decode w = none := by
  by_contra hd
  have legal := (decode_ne_none_iff_fields w).mp hd
  rcases hop with hop | hop <;> simp [hop] at legal <;> simp [legal] at h

/-- QR and VQR leave the fields RSV and R unused (30 R85, R88). -/
theorem decode_eq_none_of_qr_unused {w : Word} (hop : w.extractLsb' 24 8 = 0x05 ∨ w.extractLsb' 24 8 = 0x15)
    (h : w.extractLsb' 0 8 ≠ 0) : decode w = none := by
  by_contra hd
  have legal := (decode_ne_none_iff_fields w).mp hd
  rcases hop with hop | hop <;> simp [hop] at legal <;> simp [legal] at h

end Sys2Proof
end

section
/-! PROOF. The functions of the datapath: the rotation of a word, an ARX step, the quarter round and its passes, on the
words they name and on the others (spec 00 R12; 40 R101 to R110). -/

namespace Sys2Proof.Machine

variable {α : Type}

/-! ### Rotations (00 R12) -/

/-- Bit i of a rotated word, counted round the word (00 R12). -/
theorem getLsbD_rotl32 (v : Word) {n i : Nat} (hn : n ≤ 32) (hi : i < 32) :
    (rotl32 v n).getLsbD i = v.getLsbD ((i + (32 - n)) % 32) := by
  rw [rotl32, BitVec.getLsbD_or, BitVec.getLsbD_shiftLeft, BitVec.getLsbD_ushiftRight]
  by_cases h : i < n
  · rw [Nat.mod_eq_of_lt (by omega)]
    simp [h, Nat.add_comm]
  · rw [show (i + (32 - n)) % 32 = i - n by omega]
    simp [h, hi, BitVec.getLsbD_of_ge v (32 - n + i) (by omega)]

/-- Rotations one after another add up, to a whole turn at most. -/
theorem rotl32_rotl32 (v : Word) {m n : Nat} (h : m + n ≤ 32) : rotl32 (rotl32 v m) n = rotl32 v (m + n) := by
  refine BitVec.eq_of_getLsbD_eq fun i hi => ?_
  rw [getLsbD_rotl32 _ (by omega) hi, getLsbD_rotl32 _ (by omega) (Nat.mod_lt _ (by omega)), getLsbD_rotl32 _ h hi]
  exact congrArg v.getLsbD (by omega)

/-- A whole turn gives the word back. -/
theorem rotl32_whole (v : Word) : rotl32 v 32 = v := by
  refine BitVec.eq_of_getLsbD_eq fun i hi => ?_
  rw [getLsbD_rotl32 _ le_rfl hi, Nat.sub_self, Nat.add_zero, Nat.mod_eq_of_lt hi]

theorem rotl32_zero (n : Nat) : rotl32 0 n = 0 := by simp [rotl32]

/-- The word of ones is a fixed point of every rotation (40 R104). -/
theorem rotl32_allOnes (r : Rot) : rotl32 0xFFFFFFFF r.amount = 0xFFFFFFFF := by cases r <;> decide

/-- Four rotations by 8 make a whole turn (40 R104). -/
theorem rotl32_four_by_eight (v : Word) : rotl32 (rotl32 (rotl32 (rotl32 v 8) 8) 8) 8 = v := by
  rw [rotl32_rotl32 v (by decide), rotl32_rotl32 v (by decide), rotl32_rotl32 v (by decide), rotl32_whole]

/-- Four rotations of one word by 8 give the file back (40 R104). -/
theorem rotlStep_four_by_eight (x : Vector DataWord 16) (a : Index) :
    rotlStep dataOps (rotlStep dataOps (rotlStep dataOps (rotlStep dataOps x a 8) a 8) a 8) a 8 = x := by
  have turn (u : DataWord) : dataOps.rotl (dataOps.rotl (dataOps.rotl (dataOps.rotl u 8) 8) 8) 8 = u := by
    cases u with
    | none => rfl
    | some v => exact congrArg some (rotl32_four_by_eight v)
  simp [rotlStep, turn]

/-! ### An ARX step (40 R102) -/

theorem set_get {n : Nat} (x : Vector α n) (i j : Fin n) (v : α) : (x.set i v)[j] = if i = j then v else x[j] := by
  simp [Vector.getElem_set, Fin.ext_iff]

/-- X[d] after an ARX step: with d = a it meets the sum (40 R101, R102). -/
theorem arxStep_get_d (o : WordOps α) (x : Vector α 16) (a b d : Index) (n : Nat) :
    (arxStep o x a b d n)[d] =
      o.rotl (o.xor (if a = d then o.add x[a] x[b] else x[d]) (o.add x[a] x[b])) n := by
  simp only [arxStep, set_get, if_true]

/-- X[a] after an ARX step with d another word (40 R102). -/
theorem arxStep_get_a (o : WordOps α) (x : Vector α 16) {a d : Index} (b : Index) (n : Nat) (h : a ≠ d) :
    (arxStep o x a b d n)[a] = o.add x[a] x[b] := by
  simp only [arxStep, set_get, if_neg h.symm, if_true]

/-- An ARX step on valid words follows its rule (40 R101, R102). -/
theorem arxRule_arxStep (x : Vector DataWord 16) (a b d : Index) (n : Nat) :
    ArxRule a b d n x (arxStep dataOps x a b d n) := by
  intro va vb vd ha hb hd
  have sum : dataOps.add x[a] x[b] = some (va + vb) := by rw [ha, hb]; rfl
  refine ⟨?_, fun h => (arxStep_get_a dataOps x b n h).trans sum, fun i => arxStep_other dataOps x a b d i n⟩
  rw [arxStep_get_d, sum, hd]
  by_cases h : a = d
  · rw [if_pos h, if_pos h.symm, ← some_respects.xor, ← some_respects.rotl]
    exact congrArg some ((congrArg (rotl32 · n) BitVec.xor_self).trans (rotl32_zero n))
  · rw [if_neg h, if_neg (Ne.symm h)]
    rfl

/-- The rule of an ARX step with d another word than a (40 R102). -/
theorem arxRule_of_ne {a b d : Index} {n : Nat} {x y : Vector DataWord 16} (h : ArxRule a b d n x y) (had : a ≠ d)
    {va vb vd : Word} (ha : x[a] = some va) (hb : x[b] = some vb) (hd : x[d] = some vd) :
    y[a] = some (va + vb) ∧ y[d] = some (rotl32 (vd ^^^ (va + vb)) n) ∧ ∀ i : Index, i ≠ a → i ≠ d → y[i] = x[i] := by
  obtain ⟨hd', ha', hother⟩ := h va vb vd ha hb hd
  rw [if_neg had.symm] at hd'
  exact ⟨ha' had, hd', hother⟩

/-! ### The quarter round (40 R106) -/

/-- The quarter round is its four lines (40 R106). -/
theorem qrLines_quarterRound (x : Vector DataWord 16) (a b c d : Index) :
    QrLines a b c d x (quarterRound dataOps x a b c d) :=
  ⟨_, _, _, arxRule_arxStep _ _ _ _ _, arxRule_arxStep _ _ _ _ _, arxRule_arxStep _ _ _ _ _, arxRule_arxStep _ _ _ _ _⟩

/-- The four lines on different words leave the values of the rule: each line finds what the lines before left in its
three words (40 R106). -/
theorem qrRule_of_qrLines {a b c d : Index} {x y : Vector DataWord 16} (h : QrLines a b c d x y) :
    QrRule a b c d x y := by
  obtain ⟨y1, y2, y3, h1, h2, h3, h4⟩ := h
  intro va vb vc vd ha hb hc hd hnodup
  obtain ⟨⟨hab, hac, had⟩, ⟨hbc, hbd⟩, hcd⟩ : (a ≠ b ∧ a ≠ c ∧ a ≠ d) ∧ (b ≠ c ∧ b ≠ d) ∧ c ≠ d := by
    simpa using hnodup
  obtain ⟨ha1, hd1, keep1⟩ := arxRule_of_ne h1 had ha hb hd
  have hb1 := (keep1 b hab.symm hbd).trans hb
  have hc1 := (keep1 c hac.symm hcd).trans hc
  obtain ⟨hc2, hb2, keep2⟩ := arxRule_of_ne h2 hbc.symm hc1 hd1 hb1
  have ha2 := (keep2 a hac hab).trans ha1
  have hd2 := (keep2 d hcd.symm hbd.symm).trans hd1
  obtain ⟨ha3, hd3, keep3⟩ := arxRule_of_ne h3 had ha2 hb2 hd2
  have hb3 := (keep3 b hab.symm hbd).trans hb2
  have hc3 := (keep3 c hac.symm hcd).trans hc2
  obtain ⟨hc4, hb4, keep4⟩ := arxRule_of_ne h4 hbc.symm hc3 hd3 hb3
  exact ⟨(keep4 a hac hab).trans ha3, hb4, hc4, (keep4 d hcd.symm hbd.symm).trans hd3⟩

/-! ### Passes and double rounds (40 R108 to R110) -/

theorem pass_append (o : WordOps α) (x : Vector α 16) (qs rs : List (Index × Index × Index × Index)) :
    pass o x (qs ++ rs) = pass o (pass o x qs) rs :=
  List.foldl_append

/-- The double round is one pass over the columns and the diagonals (40 R109). -/
theorem doubleRound_eq_pass (o : WordOps α) (x : Vector α 16) : doubleRound o x = pass o x (columns ++ diagonals) :=
  (pass_append ..).symm

/-- n double rounds are one pass over n times the columns and the diagonals (40 R110). -/
theorem doubleRounds_eq_pass (o : WordOps α) (n : Nat) (x : Vector α 16) :
    doubleRounds o n x = pass o x (List.replicate n (columns ++ diagonals)).flatten := by
  induction n generalizing x with
  | zero => rfl
  | succ n ih =>
    rw [doubleRounds, ih, List.replicate_succ, List.flatten_cons, pass_append, doubleRound_eq_pass]

/-- A pass is its quarter rounds one after another (40 R109). -/
theorem qrChain_pass (x : Vector DataWord 16) (qs : List (Index × Index × Index × Index)) :
    QrChain qs x (pass dataOps x qs) := by
  induction qs generalizing x with
  | nil => rfl
  | cons q qs ih => exact ⟨_, qrLines_quarterRound .., ih _⟩

theorem vector_eq_of_get {n : Nat} {x y : Vector α n} (h : ∀ j : Fin n, x[j] = y[j]) : x = y :=
  Vector.ext fun i hi => h ⟨i, hi⟩

/-- Quarter rounds without a common word can change places: each reads and writes its own words only (40 R108). -/
theorem quarterRound_comm (o : WordOps α) (x : Vector α 16) {a b c d a' b' c' d' : Index}
    (h : ∀ j ∈ [a, b, c, d], j ∉ [a', b', c', d']) :
    quarterRound o (quarterRound o x a b c d) a' b' c' d' = quarterRound o (quarterRound o x a' b' c' d') a b c d := by
  refine vector_eq_of_get fun j => ?_
  have outside (y : Vector α 16) := quarterRound_other o y a b c d j
  have outside' (y : Vector α 16) := quarterRound_other o y a' b' c' d' j
  by_cases hq : j ∈ [a, b, c, d]
  · rw [outside' _ (h j hq)]
    exact quarterRound_agree o a b c d (fun k hk => (quarterRound_other o x a' b' c' d' k (h k hk)).symm) j hq
  · rw [outside _ hq]
    by_cases hr : j ∈ [a', b', c', d']
    · exact quarterRound_agree o a' b' c' d'
        (fun k hk => quarterRound_other o x a b c d k fun hk' => h k hk' hk) j hr
    · rw [outside' _ hr, outside' _ hr, outside _ hq]

/-- The four indices a quadruple names (40 R108). -/
def quadIndices (q : Index × Index × Index × Index) : List Index := [q.1, q.2.1, q.2.2.1, q.2.2.2]

/-- Quadruples that share no words give one pass in every order (40 R108). -/
theorem pass_perm (o : WordOps α) (x : Vector α 16) {qs rs : List (Index × Index × Index × Index)} (hperm : qs.Perm rs)
    (disjoint : ∀ q ∈ rs, ∀ r ∈ rs, q = r ∨ ∀ j ∈ quadIndices q, j ∉ quadIndices r) : pass o x qs = pass o x rs := by
  refine (hperm.symm.foldl_eq' (fun q hq r hr y => ?_) x).symm
  rcases disjoint q hq r hr with rfl | h
  · rfl
  · exact quarterRound_comm o y h

/-! ### Zero -/

variable {o : WordOps α} {z : α}

/-- `z` is a zero of the three operations of 00 R12: zeros make zero. -/
structure IsZero (o : WordOps α) (z : α) : Prop where
  add  : o.add z z = z
  xor  : o.xor z z = z
  rotl : ∀ n, o.rotl z n = z

theorem isZero_wordOps : IsZero wordOps 0 := ⟨BitVec.add_zero 0, BitVec.xor_self, rotl32_zero⟩

theorem isZero_dataOps : IsZero dataOps (some 0) :=
  ⟨rfl, congrArg some BitVec.xor_self, fun n => congrArg some (rotl32_zero n)⟩

theorem arxStep_zero (h : IsZero o z) {x : Vector α 16} {a b d : Index} (n : Nat) (ha : x[a] = z) (hb : x[b] = z)
    (hd : x[d] = z) : arxStep o x a b d n = x := by
  have hset (i : Index) (hi : x[i] = z) : x.set i z = x := hi ▸ Vector.set_getElem_self _
  rw [arxStep, ha, hb, h.add, hset a ha, ha, hd, h.xor, h.rotl, hset d hd]

/-- Four zero words are a fixed point of the quarter round (40 R106). -/
theorem quarterRound_zero (h : IsZero o z) {x : Vector α 16} {a b c d : Index} (hx : ∀ j ∈ [a, b, c, d], x[j] = z) :
    quarterRound o x a b c d = x := by
  obtain ⟨ha, hb, hc, hd⟩ : x[a] = z ∧ x[b] = z ∧ x[c] = z ∧ x[d] = z := by simpa using hx
  simp only [quarterRound, arxStep_zero h _ ha hb hd, arxStep_zero h _ hc hd hb]

theorem pass_zero (h : IsZero o z) (qs : List (Index × Index × Index × Index)) :
    pass o (Vector.replicate 16 z) qs = Vector.replicate 16 z := by
  induction qs with
  | nil => rfl
  | cons q qs ih => rwa [pass, List.foldl_cons, quarterRound_zero h (by simp)]

/-- The zero state is a fixed point of the double round (40 R109). -/
theorem doubleRound_zero (h : IsZero o z) : doubleRound o (Vector.replicate 16 z) = Vector.replicate 16 z := by
  rw [doubleRound_eq_pass, pass_zero h]

/-- The block of the zero state is zero (41 R126). -/
theorem blockWords_zero (h : IsZero o z) : blockWords o (Vector.replicate 16 z) = Vector.replicate 16 z := by
  rw [blockWords, permutation, doubleRounds_eq_pass, pass_zero h]
  ext i hi
  simp [feedForward, h.add]

end Sys2Proof.Machine
end

section
/-! PROOF. Commands one after another: when each is ready, and what they make of the state together (spec 30 R80; 40
R106, R109, R110). -/

namespace Sys2Proof.Machine

/-! ### When a command is ready -/

/-- Every command records its own word when its read set holds an invalid word (60 R226). -/
theorem raisesUninit (i : Instr) : RaisesUninit i (encode i) :=
  fun _ hs hw ⟨_, hr, hinvalid⟩ => exec_of_uninit hs hw hr hinvalid

theorem wellFormed_of_scalar {i : Instr} (b : Bool) (h : i.isLane = false) : i.WellFormed b = true := by
  simp [Instr.WellFormed, h]

/-- A build that has a 4-lane command has them all (44 R160). -/
theorem wellFormed_of_isLane_imp {i j : Instr} {b : Bool} (h : i.WellFormed b = true)
    (hj : j.isLane = true → i.isLane = true) : j.WellFormed b = true := by
  cases hl : j.isLane with
  | false => exact wellFormed_of_scalar b hl
  | true => simpa [Instr.WellFormed, hl, hj hl] using h

/-- A command is ready when what it reads is in the read set of one that is. -/
theorem ready_of_reads {i j : Instr} {s : State} (h : Ready i s) (hj : j.isLane = true → i.isLane = true)
    (hsub : ∀ r, inReadSet j r = true → inReadSet i r = true) : Ready j s := by
  obtain ⟨hs, hw, hreads⟩ := h
  exact ⟨hs, wellFormed_of_isLane_imp hw hj, fun r hr => hreads r (hsub r hr)⟩

/-- After a command another is ready when all it reads was valid before or is what the first wrote (10 R22). -/
theorem ready_effect {i j : Instr} {s : State} (h : Ready i s) (hj : j.isLane = true → i.isLane = true)
    (hreads : ∀ r, inReadSet j r = true → mayWrite i r = true ∨ s.rd r ≠ none) : Ready j (effect i s) := by
  obtain ⟨hs, hw, hvalid⟩ := id h
  obtain ⟨hcap, hstatus, _⟩ := effect_keeps i s
  refine ⟨hstatus.trans hs, hcap ▸ wellFormed_of_isLane_imp hw hj, fun r hr => ?_⟩
  rcases hreads r hr with hw | hr
  · exact rd_effect_ne_none hvalid hw
  · exact rd_effect_keeps_valid h hr

/-- The lines of a ready QR are ready: they read its words only (40 R106). -/
theorem ready_of_mem_qrAsArx {a b c d : Index} {s : State} (h : Ready (.qr a b c d) s) :
    ∀ i ∈ qrAsArx a b c d, Ready i s := by
  have line (p q t : Index) (r : Rot) (hp : [p, q, t] ⊆ [a, b, c, d]) : Ready (.arx p q t r) s :=
    ready_of_reads h nofun fun reg hreg => by
      obtain ⟨j, hj, rfl⟩ := isXOf_iff.mp hreg
      exact isXOf_iff.mpr ⟨j, hp hj, rfl⟩
  simp only [qrAsArx, List.forall_mem_cons]
  refine ⟨line _ _ _ _ ?_, line _ _ _ _ ?_, line _ _ _ _ ?_, line _ _ _ _ ?_, nofun⟩ <;> simp

/-- With X valid every QR is ready (40 R106, R109). -/
theorem ready_qr_of_ready_dround {s : State} (h : Ready .dround s) (a b c d : Index) : Ready (.qr a b c d) s :=
  ready_of_reads h nofun fun r hr => by
    obtain ⟨j, _, rfl⟩ := isXOf_iff.mp hr
    rfl

theorem ready_of_mem_droundAsQr {s : State} (h : Ready .dround s) : ∀ i ∈ droundAsQr, Ready i s := by
  simp [droundAsQr, ready_qr_of_ready_dround h]

/-- ROTL is ready with no fault and its word valid. -/
theorem ready_rotl {s : State} {a : Index} {v : Word} (r : Rot) (hs : s.status = none) (hv : s.x[a] = some v) :
    Ready (.rotl a r) s := by
  refine ⟨hs, wellFormed_of_scalar _ rfl, fun reg hreg => ?_⟩
  obtain ⟨j, hj, rfl⟩ := isXOf_iff.mp hreg
  obtain rfl := List.mem_singleton.mp hj
  exact Option.ne_none_iff_exists'.mpr ⟨v, hv⟩

/-- DROUND is ready with no fault and X valid. -/
theorem ready_dround {s : State} {x : Vector Word 16} (hs : s.status = none) (hx : s.x = lift x) : Ready .dround s := by
  refine ⟨hs, wellFormed_of_scalar _ rfl, fun r hr => ?_⟩
  cases r with
  | x j => simpa only [State.rd, hx] using lift_get_ne x j
  | _ => cases hr

/-! ### Runs of ready commands -/

theorem runCommands_cons {i : Instr} {is : List Instr} {s : State} (h : Ready i s) :
    runCommands (i :: is) s = runCommands is (effect i s) := by
  rw [runCommands, exec_of_ready i s h]

/-- A command keeps another ready one ready (10 R22; 60 R230). -/
theorem ready_effect_of_ready {i j : Instr} {s : State} (h : Ready i s) (hj : Ready j s) : Ready j (effect i s) := by
  obtain ⟨hcap, hstatus, _⟩ := effect_keeps i s
  obtain ⟨hs, hw, hreads⟩ := hj
  exact ⟨hstatus.trans hs, hcap.symm ▸ hw, fun r hr => rd_effect_keeps_valid h (hreads r hr)⟩

/-- Commands that are all ready have their effects one after another (30 R80). -/
theorem runCommands_of_ready {is : List Instr} {s : State} (h : ∀ i ∈ is, Ready i s) :
    runCommands is s = .next (is.foldl (fun t i => effect i t) s) := by
  induction is generalizing s with
  | nil => rfl
  | cons i is ih =>
    obtain ⟨hi, his⟩ := List.forall_mem_cons.mp h
    rw [runCommands_cons hi, List.foldl_cons, ih fun j hj => ready_effect_of_ready hi (his j hj)]

/-- The ten double rounds of 40 R110 on a file of valid words. -/
theorem permutation_lift (x : Vector Word 16) : permutation dataOps (lift x) = lift (permutation wordOps x) :=
  (doubleRounds_map some_respects Config.doubleRounds x).symm

/-- n DROUND commands make n double rounds of X (40 R110). -/
theorem foldl_effect_dround (n : Nat) (s : State) :
    (List.replicate n Instr.dround).foldl (fun t i => effect i t) s = { s with x := doubleRounds dataOps n s.x } := by
  induction n generalizing s with
  | zero => rfl
  | succ n ih => rw [List.replicate_succ, List.foldl_cons, ih, effect, doubleRounds]

/-! ### Composite commands as their steps -/

/-- Four ROTL by 8 give the state back (40 R104). -/
theorem runCommands_rotl_four_by_eight {a : Index} {s : State} (h : Ready (.rotl a .r8) s) :
    runCommands (List.replicate 4 (.rotl a .r8)) s = .next s := by
  rw [runCommands_of_ready fun i hi => (List.eq_of_mem_replicate hi) ▸ h]
  exact congrArg (fun x => Host.Outcome.next { s with x := x }) (rotlStep_four_by_eight s.x a)

/-- QR is its four ARX commands (40 R106). -/
theorem runCommands_qrAsArx {a b c d : Index} {s : State} (h : Ready (.qr a b c d) s) :
    runCommands (qrAsArx a b c d) s = exec (.qr a b c d) s := by
  rw [runCommands_of_ready (ready_of_mem_qrAsArx h), exec_of_ready _ _ h]
  rfl

/-- DROUND is its eight QR commands (40 R109). -/
theorem runCommands_droundAsQr {s : State} (h : Ready .dround s) : runCommands droundAsQr s = exec .dround s := by
  rw [runCommands_of_ready (ready_of_mem_droundAsQr h), exec_of_ready _ _ h]
  simp only [droundAsQr, effect, doubleRound, pass, columns, diagonals, List.foldl_cons, List.foldl_nil]

/-- After XLOAD a command that reads words of X and ST is ready (41 R126). -/
theorem ready_after_xload {s : State} (h : Ready .block s) {i : Instr}
    (hi : i.isLane = true → Instr.xload.isLane = true)
    (hreads : ∀ r, inReadSet i r = true → fileOf r = .x ∨ fileOf r = .st) : Ready i (effect .xload s) := by
  obtain ⟨_, _, hvalid⟩ := id h
  refine ready_effect (ready_of_reads h nofun fun _ hr => hr) hi fun r hr => ?_
  rcases hreads r hr with hx | hst
  · exact .inl (by simp [mayWrite, hx])
  · exact .inr (hvalid r (by simp [inReadSet, hst]))

/-- BLOCK is its step commands: XLOAD makes X valid, and all the others are ready then (41 R126). -/
theorem runCommands_blockAsSteps {s : State} (h : Ready .block s) : runCommands blockAsSteps s = exec .block s := by
  have steps : ∀ i ∈ List.replicate 10 Instr.dround ++ [.feedfwd, .serial], Ready i (effect .xload s) := by
    intro i hi
    have hi : i = .dround ∨ i = .feedfwd ∨ i = .serial := by simpa using hi
    rcases hi with rfl | rfl | rfl <;> refine ready_after_xload h nofun fun r hr => ?_
    · exact .inl (beq_iff_eq.mp hr)
    · simpa [inReadSet] using hr
    · exact .inl (beq_iff_eq.mp hr)
  rw [exec_of_ready _ _ h, blockAsSteps, List.append_assoc, List.singleton_append,
    runCommands_cons (i := .xload) (ready_of_reads h nofun fun _ hr => hr), runCommands_of_ready steps,
    List.foldl_append, foldl_effect_dround]
  rfl

/-- GEN is INIT, then BLOCK, then CTR + 1 (43 R150). -/
theorem runCommands_init_block {s : State} (h : Ready .gen s) :
    ∃ t : State, runCommands [.init, .block] s = .next t ∧ exec .gen s = .next (advanceCtr 1 t) ∧ t.ctr = s.ctr := by
  have hinit : Ready .init s := ready_of_reads h nofun fun _ hr => hr
  have hblock : Ready .block (effect .init s) := ready_effect hinit nofun fun _ hr => .inl hr
  refine ⟨effect .block (effect .init s), ?_, exec_of_ready _ _ h, rfl⟩
  rw [runCommands_cons hinit, runCommands_cons hblock]
  rfl

end Sys2Proof.Machine
end

section
/-! PROOF. The statements about the datapath (spec 40). -/

namespace Sys2Proof.Machine

/-- Settles O29, by the rule of an ARX step. -/
theorem arxAddsThenXorsAndRotates : Obligations.ArxAddsThenXorsAndRotates :=
  ⟨fun a b d r => ⟨decode_encode (.arx a b d r), raisesUninit (.arx a b d r)⟩,
    fun _ hop => decode_eq_none_of_arx_unused (.inl hop),
    fun a b d r s h => ⟨_, exec_of_ready _ s h, arxRule_arxStep s.x a b d r.amount⟩⟩

/-- Settles O30; 0 and the word of ones are fixed points of every rotation. -/
theorem rotlRotatesOneWord : Obligations.RotlRotatesOneWord := by
  refine ⟨fun a r => ⟨decode_encode (.rotl a r), raisesUninit (.rotl a r)⟩,
    fun _ hop => decode_eq_none_of_rotl_unused (.inl hop), fun a r s v hs hv => ⟨?_, ?_⟩⟩
  · have step : rotlStep dataOps s.x a r.amount = s.x.set a (some (rotl32 v r.amount)) := by rw [rotlStep, hv]; rfl
    rw [exec_of_ready _ s (ready_rotl r hs hv), effect, step]
  · rintro (rfl | rfl)
    · exact rotl32_zero _
    · exact rotl32_allOnes r

/-- Settles O31: the values on different indices follow from the four lines. -/
theorem qrIsItsFourLines : Obligations.QrIsItsFourLines := by
  refine ⟨fun a b c d => ⟨decode_encode (.qr a b c d), raisesUninit (.qr a b c d)⟩,
    fun _ hop => decode_eq_none_of_qr_unused (.inl hop), fun a b c d s h => ?_⟩
  have lines := qrLines_quarterRound s.x a b c d
  exact ⟨_, exec_of_ready _ s h, lines, qrRule_of_qrLines lines, fun i => quarterRound_other dataOps s.x a b c d i,
    quarterRound_zero isZero_dataOps⟩

/-- Diagonals before columns give another state than columns before diagonals (40 R109). -/
theorem diagonals_first_differs :
    (pass wordOps (pass wordOps Tests.init1 diagonals) columns)[0] ≠ (doubleRound wordOps Tests.init1)[0] := by
  decide

/-- Settles O32; the test vector L2-INIT-1 tells the two orders apart. -/
theorem droundIsColumnsThenDiagonals : Obligations.DroundIsColumnsThenDiagonals := by
  refine ⟨encodedOnlyAs_plain (i := .dround) (by decide), raisesUninit .dround, fun s x hs hx => ⟨?_, ?_⟩,
    Tests.init1, fun h => diagonals_first_differs (congrArg (·[0]) h)⟩
  · rw [exec_of_ready _ s (ready_dround hs hx), effect, hx, doubleRound_lift]
  · rw [← doubleRound_lift, doubleRound_eq_pass]
    exact qrChain_pass (lift x) (columns ++ diagonals)

/-- Settles O33: the quadruples of a pass share no word, so their quarter rounds commute. -/
theorem orderWithinAPassDoesNotMatter : Obligations.OrderWithinAPassDoesNotMatter :=
  ⟨rfl, rfl, fun x _ h => pass_perm wordOps x h (by decide), fun x _ h => pass_perm wordOps x h (by decide)⟩

/-- Settles O34, by induction on the number of DROUND commands and of double rounds. -/
theorem tenDroundsAreEightyQuarterRounds : Obligations.TenDroundsAreEightyQuarterRounds := by
  refine ⟨fun s x hs hx => ?_, doubleRounds_eq_pass wordOps 10, by decide⟩
  rw [runCommands_of_ready fun i hi => (List.eq_of_mem_replicate hi) ▸ ready_dround hs hx, foldl_effect_dround, hx,
    ← permutation_lift]
  rfl

/-- Settles O55, each composite command by the effects of its steps. -/
theorem scalarCommandsEqualTheirSteps : Obligations.ScalarCommandsEqualTheirSteps := by
  refine ⟨fun _ _ => runCommands_rotl_four_by_eight, fun _ _ _ _ _ => runCommands_qrAsArx,
    fun _ => runCommands_droundAsQr, fun _ => runCommands_blockAsSteps, fun s c h hc => ?_,
    doubleRound_zero isZero_wordOps, blockWords_zero isZero_wordOps⟩
  obtain ⟨t, hrun, hgen, hctr⟩ := runCommands_init_block h
  exact ⟨t, hrun, by rw [hgen, advanceCtr, hctr, hc]; rfl⟩

end Sys2Proof.Machine
end

section
/-! PROOF. The host's read of a register and of a whole block (spec 10 R28, R31; 20 R55). -/

namespace Sys2Proof.Machine

/-- A present register that holds a value answers it to the host (20 R55). -/
theorem hostRead_of_rd {s : State} {r : Reg} {w : Word} (hp : Present s r) (hr : s.rd r = some w) :
    hostRead (.data r) s = .ok w := by
  simp [hostRead, Config.accessBytes, memRead_data hp hr]

/-- Sixteen present registers that hold values give the host their serialisation (10 R28, R31). -/
theorem readBlock_of_rd {reg : Index → Reg} {s : State} {x : Vector Word 16} (hp : ∀ j, Present s (reg j))
    (hx : ∀ j, s.rd (reg j) = some x[j]) : readBlock reg s = .ok (serialise x.toList) := by
  have reads : (fun j => hostRead (.data (reg j)) s) = fun j => pure x[j] :=
    funext fun j => hostRead_of_rd (hp j) (hx j)
  have words : (List.finRange 16).map (fun j => x[j]) = x.toList := List.ext_getElem (by simp) (by simp)
  rw [readBlock, reads, List.mapM_pure, words]
  rfl

end Sys2Proof.Machine
end

section
/-! PROOF. The statements about the block core (spec 41). -/

namespace Sys2Proof.Machine

theorem lift_get {n : Nat} (w : Vector Word n) (i : Fin n) : (lift w)[i] = some w[i] := by simp [lift]

/-- A word of the feed-forward is the word of the working state plus the one of the original state (41 R122). -/
theorem feedForward_get (s x : Vector Word 16) (i : Index) : (feedForward wordOps s x)[i] = x[i] + s[i] :=
  tab_get _ i.val i.isLt

/-! ### When the commands of the block core are ready -/

section Ready

variable {s : State} {st x : Vector Word 16}

theorem rd_st_ne_none (hst : s.st = lift st) {r : Reg} (hr : fileOf r = .st) : s.rd r ≠ none := by
  cases r with
  | st j => simpa only [State.rd, hst] using lift_get_ne st j
  | _ => cases hr

theorem rd_x_ne_none (hx : s.x = lift x) {r : Reg} (hr : fileOf r = .x) : s.rd r ≠ none := by
  cases r with
  | x j => simpa only [State.rd, hx] using lift_get_ne x j
  | _ => cases hr

/-- XLOAD and BLOCK read ST only: X may hold anything (41 R120, R126). -/
theorem ready_xload (hs : s.status = none) (hst : s.st = lift st) : Ready .xload s :=
  ⟨hs, wellFormed_of_scalar _ rfl, fun _ hr => rd_st_ne_none hst (beq_iff_eq.mp hr)⟩

theorem ready_block (hs : s.status = none) (hst : s.st = lift st) : Ready .block s :=
  ready_of_reads (ready_xload hs hst) nofun fun _ hr => hr

theorem ready_serial (hs : s.status = none) (hx : s.x = lift x) : Ready .serial s :=
  ready_of_reads (ready_dround hs hx) nofun fun _ hr => hr

theorem ready_feedfwd (hs : s.status = none) (hst : s.st = lift st) (hx : s.x = lift x) : Ready .feedfwd s := by
  refine ⟨hs, wellFormed_of_scalar _ rfl, fun r hr => ?_⟩
  obtain hr | hr : fileOf r = .x ∨ fileOf r = .st := by simpa [inReadSet] using hr
  · exact rd_x_ne_none hx hr
  · exact rd_st_ne_none hst hr

end Ready

/-! ### The four commands -/

/-- Settles O36, by the effect of XLOAD. -/
theorem xloadCopiesStIntoX : Obligations.XloadCopiesStIntoX := by
  refine ⟨encodedOnlyAs_plain (i := .xload) (by decide), raisesUninit .xload, fun s st hs hst => ?_⟩
  rw [exec_of_ready _ s (ready_xload hs hst), effect, hst]

/-- Settles O37: on valid words the effect of FEEDFWD adds word by word. -/
theorem feedfwdAddsStToX : Obligations.FeedfwdAddsStToX := by
  refine ⟨encodedOnlyAs_plain (i := .feedfwd) (by decide), raisesUninit .feedfwd,
    fun s st x hs hst hx => ⟨feedForward wordOps st x, ?_, feedForward_get st x⟩⟩
  rw [exec_of_ready _ s (ready_feedfwd hs hst hx), effect, hst, hx, feedForward_lift]

/-- Settles O38: the effect of SERIAL, then the host's read of the block in KS. -/
theorem serialCopiesXToKs : Obligations.SerialCopiesXToKs := by
  refine ⟨encodedOnlyAs_plain (i := .serial) (by decide), raisesUninit .serial, fun s x hs hx => ?_,
    fun s x j k hk hks => ⟨?_, ?_⟩⟩
  · rw [exec_of_ready _ s (ready_serial hs hx), effect, hx]
  · exact readBlock_of_rd (fun _ => nofun) fun j => by rw [State.rd, hks, lift_get]
  · exact getElem?_serialise hk (by simp)

/-- Settles O39: on valid words the effect of BLOCK is the block function of ST, whose feed-forward adds ST. -/
theorem blockIsPermutationAndFeedForward : Obligations.BlockIsPermutationAndFeedForward := by
  refine ⟨encodedOnlyAs_plain (i := .block) (by decide), raisesUninit .block,
    fun s st hs hst => ⟨blockWords wordOps st, ?_, feedForward_get st (permutation wordOps st), rfl, rfl⟩⟩
  rw [exec_of_ready _ s (ready_block hs hst), effect, blockEffect, hst, blockWords_lift]

end Sys2Proof.Machine
end

section
/-! PROOF. The statement about the state initializer (spec 42). -/

namespace Sys2Proof.Machine

/-- With K, N and CTR valid every word of INIT's read set is; GEN, INIT4 and GEN4 read the same words (42 R140, R141). -/
theorem rd_key_ne_none {s : State} {k : Vector Word 8} {n : Vector Word 3} {c : Word} (hk : s.k = lift k)
    (hn : s.n = lift n) (hc : s.ctr = some c) {r : Reg} (hr : inReadSet .init r = true) : s.rd r ≠ none := by
  cases r with
  | k j => simpa only [State.rd, hk] using lift_get_ne k j
  | n j => simpa only [State.rd, hn] using lift_get_ne n j
  | ctr => simp [State.rd, hc]
  | _ => cases hr

/-- INIT is ready with no fault and K, N and CTR valid: ST may hold anything (42 R140). -/
theorem ready_init {s : State} {k : Vector Word 8} {n : Vector Word 3} {c : Word} (hs : s.status = none)
    (hk : s.k = lift k) (hn : s.n = lift n) (hc : s.ctr = some c) : Ready .init s :=
  ⟨hs, wellFormed_of_scalar _ rfl, fun _ hr => rd_key_ne_none hk hn hc hr⟩

/-- InitFn word by word: constants, key, counter, nonce (42 R140, R141). -/
theorem initWords_eq (k : Vector Word 8) (n : Vector Word 3) (c : Word) :
    initWords k n c = #v[(0x61707865 : Word), 0x3320646E, 0x79622D32, 0x6B206574,
      k[0], k[1], k[2], k[3], k[4], k[5], k[6], k[7], c, n[0], n[1], n[2]] := rfl

/-- Settles O40, by the effect of INIT: on valid words it is InitFn of the key, nonce and counter words. -/
theorem initBuildsTheCipherState : Obligations.InitBuildsTheCipherState := by
  refine ⟨encodedOnlyAs_plain (i := .init) (by decide), raisesUninit .init, fun s k n c hs hk hn hc => ?_⟩
  rw [exec_of_ready _ s (ready_init hs hk hn hc), effect, initEffect, hk, hn, hc, initFn_lift, initWords_eq]

end Sys2Proof.Machine
end

section
/-! PROOF. The statements about the scalar block generator (spec 43). -/

namespace Sys2Proof.Machine

section Gen

variable {s : State} {k : Vector Word 8} {n : Vector Word 3} {c : Word}

/-- GEN reads what INIT reads: ST and X may hold anything (43 R150). -/
theorem ready_gen (hs : s.status = none) (hk : s.k = lift k) (hn : s.n = lift n) (hc : s.ctr = some c) :
    Ready .gen s :=
  ready_of_reads (ready_init hs hk hn hc) nofun fun _ hr => hr

/-- On valid words GEN leaves the state for CTR in ST, its block in X and KS, and CTR + 1 (43 R150). -/
theorem effect_gen (hk : s.k = lift k) (hn : s.n = lift n) (hc : s.ctr = some c) :
    effect .gen s = { s with
      st := lift (initWords k n c), x := lift (blockWords wordOps (initWords k n c)),
      ks := lift (blockWords wordOps (initWords k n c)), ctr := some (c + 1) } := by
  simp only [effect, initEffect, blockEffect, advanceCtr, hk, hn, hc, initFn_lift, blockWords_lift, DataWord.add]

end Gen

/-- Settles O41, by the effect of GEN. -/
theorem genMakesOneBlockAndAdvances : Obligations.GenMakesOneBlockAndAdvances := by
  refine ⟨encodedOnlyAs_plain (i := .gen) (by decide), raisesUninit .gen, fun s k n c hs hk hn hc => ?_⟩
  rw [exec_of_ready _ s (ready_gen hs hk hn hc), effect_gen hk hn hc]

/-- Counting m on from c + 1 is counting m + 1 on from c, modulo 2^32 (10 R25). -/
theorem ofNat_succ_add (c : Word) (m : Nat) :
    BitVec.ofNat 32 ((c + 1).toNat + m) = BitVec.ofNat 32 (c.toNat + (m + 1)) := by
  bv_omega

/-- Settles O42, by induction on m: the first GEN of a run leaves STATUS, K and N as they were and CTR = c + 1, and the
others run from there. -/
theorem runOfGensCountsUp : Obligations.RunOfGensCountsUp := by
  intro s k n c m hs hk hn hc
  induction m generalizing s c with
  | zero =>
    refine ⟨effect .gen s, runCommands_cons (ready_gen hs hk hn hc), ?_⟩
    simp [effect_gen hk hn hc, hs, BitVec.ofNat_add]
  | succ m ih =>
    have next : (effect .gen s).ctr = some (c + 1) := by rw [effect_gen hk hn hc]
    obtain ⟨t, hrun, ht, hks, hctr⟩ := ih (effect .gen s) (c + 1) hs hk hn next
    refine ⟨t, (runCommands_cons (ready_gen hs hk hn hc)).trans hrun, ht, ?_, ?_⟩
    · rw [hks, ofNat_succ_add]
    · exact hctr.trans (congrArg some (ofNat_succ_add c (m + 1)))

end Sys2Proof.Machine
end

section
/-! PROOF. The 4-lane commands: lane by lane they are the scalar functions, when each is ready, and what they leave on
valid words (spec 44). -/

namespace Sys2Proof.Machine

/-! ### One lane at a time (44 R160) -/

section Lanes

variable {α : Type}

/-- Files of lane vectors with the same lanes are one file. -/
theorem eq_of_laneOf {v w : Vector (Vector α 4) 16} (h : ∀ l : Lane, laneOf v l = laneOf w l) : v = w :=
  vector_eq_of_get fun i => vector_eq_of_get fun l => by rw [← laneOf_get, h, laneOf_get]

theorem laneOf_doubleRound (o : WordOps α) (v : Vector (Vector α 4) 16) (l : Lane) :
    laneOf (doubleRound (laneOps o) v) l = doubleRound o (laneOf v l) :=
  doubleRound_map (lane_respects o l) v

theorem laneOf_feedForward (o : WordOps α) (s x : Vector (Vector α 4) 16) (l : Lane) :
    laneOf (feedForward (laneOps o) s x) l = feedForward o (laneOf s l) (laneOf x l) :=
  feedForward_map (lane_respects o l) s x

theorem laneOf_liftLanes (v : Vector (Vector Word 4) 16) (l : Lane) : laneOf (liftLanes v) l = lift (laneOf v l) := by
  simp [laneOf, liftLanes, lift]

end Lanes

/-- Word w of block l is lane l of lane vector w (44 R175). -/
theorem gather_get_get (v : Vector (Vector Word 4) 16) (l : Lane) (w : Index) : (gather v)[l][w] = v[w][l] := by
  rw [gather_get, laneOf_get]

/-- A lane of the feed-forward is the lane of the working vector plus the one of the original vector (44 R173). -/
theorem feedForward_get_lane (o v : Vector (Vector Word 4) 16) (w : Index) (l : Lane) :
    (feedForward (laneOps wordOps) o v)[w][l] = v[w][l] + o[w][l] := by
  rw [← laneOf_get, laneOf_feedForward, feedForward_get, laneOf_get, laneOf_get]

/-- A lane of the block function is the permutation of that lane with the lane added back (44 R177). -/
theorem blockWords_get_lane (o : Vector (Vector Word 4) 16) (w : Index) (l : Lane) :
    (blockWords (laneOps wordOps) o)[w][l] = (permutation wordOps (laneOf o l))[w] + o[w][l] := by
  rw [← laneOf_get, laneOf_blockWords, blockWords, feedForward_get, laneOf_get]

/-- Gathered, lane l of the block function is the block of lane l (44 R177). -/
theorem gather_blockWords_lift_get (o : Vector (Vector Word 4) 16) (l : Lane) :
    ((gather (blockWords (laneOps wordOps) o)).map lift)[l] = lift (blockWords wordOps (laneOf o l)) := by
  rw [Fin.getElem_fin, Vector.getElem_map]
  exact congrArg lift ((gather_get _ l).trans (laneOf_blockWords o l))

/-- The lanes of word 12 are four counters, one after another (44 R161). -/
theorem counterLanes {o : Vector (Vector Word 4) 16} {k : Vector Word 8} {n : Vector Word 3} {c : Word}
    (h : ∀ l : Lane, laneOf o l = initWords k n (c + BitVec.ofNat 32 l.val)) : o[12] = #v[c, c + 1, c + 2, c + 3] := by
  have counter (l : Lane) : o[(12 : Index)][l] = c + BitVec.ofNat 32 l.val := by
    rw [← laneOf_get, h, initWords_eq]
    rfl
  refine vector_eq_of_get fun l => (counter l).trans ?_
  fin_cases l
  · exact BitVec.add_zero c
  all_goals rfl

/-- Four rotations of one lane vector by 8 give the file back, as in each lane (40 R104; 44 R167). -/
theorem rotlStep_vecOps_four_by_eight (v : Vector (Vector DataWord 4) 16) (a : Index) :
    rotlStep vecOps (rotlStep vecOps (rotlStep vecOps (rotlStep vecOps v a 8) a 8) a 8) a 8 = v :=
  eq_of_laneOf fun l => by simp only [laneOf_rotlStep, rotlStep_four_by_eight]

/-! ### Faults and readiness -/

/-- Without the 4-lane generator a 4-lane command records its own word (44 R160). -/
theorem illegalWithoutLane4 {i : Instr} (hi : i.isLane = true) : IllegalWithoutLane4 i (encode i) :=
  fun _ hs hb => exec_of_not_wellFormed hs (by simp [Instr.WellFormed, hb, hi])

/-- With the 4-lane generator a command is ready when its read set is valid (30 R80). -/
theorem ready_of_hasLane4 {i : Instr} {s : State} (hs : s.status = none) (h4 : s.hasLane4 = true)
    (hreads : ∀ r, inReadSet i r = true → s.rd r ≠ none) : Ready i s :=
  ⟨hs, by simp [Instr.WellFormed, h4], hreads⟩

section ValidWords

variable {s : State} {v o : Vector (Vector Word 4) 16} {k : Vector Word 8} {n : Vector Word 3} {c : Word}

theorem rd_v_ne_none (hv : s.v = liftLanes v) {r : Reg} (hr : fileOf r = .v) : s.rd r ≠ none := by
  cases r with
  | v w l => simpa only [State.rd, hv] using liftLanes_get_ne v w l
  | _ => cases hr

theorem rd_vo_ne_none (hvo : s.vo = liftLanes o) {r : Reg} (hr : fileOf r = .vo) : s.rd r ≠ none := by
  cases r with
  | vo w l => simpa only [State.rd, hvo] using liftLanes_get_ne o w l
  | _ => cases hr

theorem ready_vload (hs : s.status = none) (h4 : s.hasLane4 = true) (hvo : s.vo = liftLanes o) : Ready .vload s :=
  ready_of_hasLane4 hs h4 fun _ hr => rd_vo_ne_none hvo (beq_iff_eq.mp hr)

/-- BLOCK4 reads VO only: V may hold anything (44 R177). -/
theorem ready_block4 (hs : s.status = none) (h4 : s.hasLane4 = true) (hvo : s.vo = liftLanes o) : Ready .block4 s :=
  ready_of_reads (ready_vload hs h4 hvo) (fun _ => rfl) fun _ hr => hr

theorem ready_vdround (hs : s.status = none) (h4 : s.hasLane4 = true) (hv : s.v = liftLanes v) : Ready .vdround s :=
  ready_of_hasLane4 hs h4 fun _ hr => rd_v_ne_none hv (beq_iff_eq.mp hr)

theorem ready_vgather (hs : s.status = none) (h4 : s.hasLane4 = true) (hv : s.v = liftLanes v) : Ready .vgather s :=
  ready_of_reads (ready_vdround hs h4 hv) (fun _ => rfl) fun _ hr => hr

theorem ready_vfeedfwd (hs : s.status = none) (h4 : s.hasLane4 = true) (hv : s.v = liftLanes v)
    (hvo : s.vo = liftLanes o) : Ready .vfeedfwd s := by
  refine ready_of_hasLane4 hs h4 fun r hr => ?_
  obtain hr | hr : fileOf r = .v ∨ fileOf r = .vo := by simpa [inReadSet] using hr
  · exact rd_v_ne_none hv hr
  · exact rd_vo_ne_none hvo hr

theorem ready_vrotl {a : Index} {u : Vector Word 4} (r : Rot) (hs : s.status = none) (h4 : s.hasLane4 = true)
    (hu : s.v[a] = lift u) : Ready (.vrotl a r) s := by
  refine ready_of_hasLane4 hs h4 fun reg hreg => ?_
  obtain ⟨w, hw, l, rfl⟩ := isVOf_iff.mp hreg
  obtain rfl := List.mem_singleton.mp hw
  simpa only [State.rd, hu] using lift_get_ne u l

/-- INIT4 reads what INIT reads: VO may hold anything (44 R161). -/
theorem ready_init4 (hs : s.status = none) (h4 : s.hasLane4 = true) (hk : s.k = lift k) (hn : s.n = lift n)
    (hc : s.ctr = some c) : Ready .init4 s :=
  ready_of_hasLane4 hs h4 fun _ hr => rd_key_ne_none hk hn hc hr

/-- GEN4 reads what INIT4 reads: VO and V may hold anything (44 R180). -/
theorem ready_gen4 (hs : s.status = none) (h4 : s.hasLane4 = true) (hk : s.k = lift k) (hn : s.n = lift n)
    (hc : s.ctr = some c) : Ready .gen4 s :=
  ready_of_reads (ready_init4 hs h4 hk hn hc) (fun _ => rfl) fun _ hr => hr

/-! ### The composite commands on valid words -/

/-- On valid words INIT4 leaves in lane l of VO the state for counter c + l (44 R161). -/
theorem effect_init4 (hk : s.k = lift k) (hn : s.n = lift n) (hc : s.ctr = some c) :
    ∃ o : Vector (Vector Word 4) 16, effect .init4 s = { s with vo := liftLanes o } ∧
      ∀ l : Lane, laneOf o l = initWords k n (c + BitVec.ofNat 32 l.val) := by
  obtain ⟨o, ho, hlanes⟩ := initLanes_lift k n c
  exact ⟨o, by rw [effect, init4Effect, hk, hn, hc, ho], hlanes⟩

/-- On valid words BLOCK4 leaves the block function of every lane of VO in V, and gathered in KS4 (44 R177). -/
theorem effect_block4 (hvo : s.vo = liftLanes o) :
    effect .block4 s = { s with
      v := liftLanes (blockWords (laneOps wordOps) o),
      ks4 := (gather (blockWords (laneOps wordOps) o)).map lift } := by
  rw [effect, block4Effect, hvo, blockWords_liftLanes, gather_liftLanes]

/-- GEN4 is INIT4, then BLOCK4, then CTR + 4 (44 R180). -/
theorem effect_gen4 (hc : s.ctr = some c) :
    effect .gen4 s = { effect .block4 (effect .init4 s) with ctr := some (c + 4) } := by
  simp only [effect, init4Effect, block4Effect, advanceCtr, hc, DataWord.add]

/-- INIT4 makes VO valid, so BLOCK4 runs after it (44 R180). -/
theorem runCommands_init4_block4 (h : Ready .init4 s) :
    runCommands [.init4, .block4] s = .next (effect .block4 (effect .init4 s)) := by
  have hblock : Ready .block4 (effect .init4 s) := ready_effect h (fun _ => rfl) fun _ hr => .inl hr
  rw [runCommands_cons h, runCommands_cons hblock]
  rfl

/-- On valid words INIT4 then BLOCK4 leave four states in VO and their blocks in V and KS4 (44 R180). -/
theorem effect_init4_block4 (hk : s.k = lift k) (hn : s.n = lift n) (hc : s.ctr = some c) :
    ∃ o : Vector (Vector Word 4) 16,
      effect .block4 (effect .init4 s) = { s with
        vo := liftLanes o, v := liftLanes (blockWords (laneOps wordOps) o),
        ks4 := (gather (blockWords (laneOps wordOps) o)).map lift } ∧
      ∀ l : Lane, laneOf o l = initWords k n (c + BitVec.ofNat 32 l.val) := by
  obtain ⟨o, hinit, hlanes⟩ := effect_init4 hk hn hc
  exact ⟨o, by rw [hinit, effect_block4 rfl], hlanes⟩

end ValidWords

/-! ### 4-lane commands as their steps (44 R167, R169, R177) -/

/-- Four VROTL by 8 give the state back (40 R104; 44 R167). -/
theorem runCommands_vrotl_four_by_eight {a : Index} {s : State} (h : Ready (.vrotl a .r8) s) :
    runCommands (List.replicate 4 (.vrotl a .r8)) s = .next s := by
  rw [runCommands_of_ready fun i hi => (List.eq_of_mem_replicate hi) ▸ h]
  exact congrArg (fun v => Host.Outcome.next { s with v := v }) (rotlStep_vecOps_four_by_eight s.v a)

/-- The lines of a ready VQR are ready: they read its lane vectors only (44 R169). -/
theorem ready_of_mem_vqrAsVarx {a b c d : Index} {s : State} (h : Ready (.vqr a b c d) s) :
    ∀ i ∈ vqrAsVarx a b c d, Ready i s := by
  have line (p q t : Index) (r : Rot) (hp : [p, q, t] ⊆ [a, b, c, d]) : Ready (.varx p q t r) s :=
    ready_of_reads h (fun _ => rfl) fun reg hreg => by
      obtain ⟨w, hw, l, rfl⟩ := isVOf_iff.mp hreg
      exact isVOf_iff.mpr ⟨w, hp hw, l, rfl⟩
  simp only [vqrAsVarx, List.forall_mem_cons]
  refine ⟨line _ _ _ _ ?_, line _ _ _ _ ?_, line _ _ _ _ ?_, line _ _ _ _ ?_, nofun⟩ <;> simp

/-- VQR is its four VARX commands (44 R165, R169; log entry 13). -/
theorem runCommands_vqrAsVarx {a b c d : Index} {s : State} (h : Ready (.vqr a b c d) s) :
    runCommands (vqrAsVarx a b c d) s = exec (.vqr a b c d) s := by
  rw [runCommands_of_ready (ready_of_mem_vqrAsVarx h), exec_of_ready _ _ h]
  rfl

/-- n VDROUND commands make n double rounds of V (44 R171). -/
theorem foldl_effect_vdround (n : Nat) (s : State) :
    (List.replicate n Instr.vdround).foldl (fun t i => effect i t) s = { s with v := doubleRounds vecOps n s.v } := by
  induction n generalizing s with
  | zero => rfl
  | succ n ih => rw [List.replicate_succ, List.foldl_cons, ih, effect, doubleRounds]

/-- After VLOAD a command that reads words of V and VO is ready (44 R177). -/
theorem ready_after_vload {s : State} (h : Ready .block4 s) {i : Instr}
    (hreads : ∀ r, inReadSet i r = true → fileOf r = .v ∨ fileOf r = .vo) : Ready i (effect .vload s) := by
  obtain ⟨_, _, hvalid⟩ := id h
  refine ready_effect (ready_of_reads h (fun _ => rfl) fun _ hr => hr) (fun _ => rfl) fun r hr => ?_
  rcases hreads r hr with hv | hvo
  · exact .inl (by simp [mayWrite, hv])
  · exact .inr (hvalid r (by simp [inReadSet, hvo]))

/-- BLOCK4 is its step commands: VLOAD makes V valid, and all the others are ready then (44 R177). -/
theorem runCommands_block4AsSteps {s : State} (h : Ready .block4 s) :
    runCommands block4AsSteps s = exec .block4 s := by
  have steps : ∀ i ∈ List.replicate 10 Instr.vdround ++ [.vfeedfwd, .vgather], Ready i (effect .vload s) := by
    intro i hi
    have hi : i = .vdround ∨ i = .vfeedfwd ∨ i = .vgather := by simpa using hi
    rcases hi with rfl | rfl | rfl <;> refine ready_after_vload h fun r hr => ?_
    · exact .inl (beq_iff_eq.mp hr)
    · simpa [inReadSet] using hr
    · exact .inl (beq_iff_eq.mp hr)
  rw [exec_of_ready _ _ h, block4AsSteps, List.append_assoc, List.singleton_append,
    runCommands_cons (i := .vload) (ready_of_reads h (fun _ => rfl) fun _ hr => hr), runCommands_of_ready steps,
    List.foldl_append, foldl_effect_vdround]
  rfl

/-- VDROUND leaves in a lane what DROUND leaves in an X that held it (44 R171). -/
theorem effect_dround_x_of_lane {s u : State} {l : Lane} (hu : u.x = laneOf s.v l) :
    (effect .dround u).x = laneOf (effect .vdround s).v l := by
  simp only [effect, hu]
  exact (laneOf_doubleRound dataOps s.v l).symm

end Sys2Proof.Machine
end

section
/-! PROOF. The statements about the 4-lane generator (spec 44). -/

namespace Sys2Proof.Machine

/-! ### The commands on lane vectors -/

/-- Settles O43, by the effect of INIT4; the counters stand in word 12 of each state. -/
theorem init4BuildsFourStates : Obligations.Init4BuildsFourStates := by
  refine ⟨encodedOnlyAs_plain (i := .init4) (by decide), raisesUninit .init4, illegalWithoutLane4 (i := .init4) rfl,
    fun s k n c hs h4 hk hn hc => ?_⟩
  obtain ⟨o, heffect, hlanes⟩ := effect_init4 hk hn hc
  exact ⟨o, (exec_of_ready _ s (ready_init4 hs h4 hk hn hc)).trans (congrArg _ heffect), hlanes, counterLanes hlanes⟩

/-- Settles O44, by the effect of VLOAD. -/
theorem vloadCopiesVoIntoV : Obligations.VloadCopiesVoIntoV := by
  refine ⟨encodedOnlyAs_plain (i := .vload) (by decide), raisesUninit .vload, illegalWithoutLane4 (i := .vload) rfl,
    fun s o hs h4 hvo => ?_⟩
  rw [exec_of_ready _ s (ready_vload hs h4 hvo), effect, hvo]

/-- Settles O45: lane by lane the step is the ARX step. -/
theorem varxIsArxOnEveryLane : Obligations.VarxIsArxOnEveryLane := by
  refine ⟨fun a b d r => ⟨decode_encode (.varx a b d r), raisesUninit (.varx a b d r),
    illegalWithoutLane4 (i := .varx a b d r) rfl⟩, fun _ hop => decode_eq_none_of_arx_unused (.inr hop),
    fun a b d r s h => ⟨_, exec_of_ready _ s h, fun l => ?_⟩⟩
  rw [laneOf_arxStep]
  exact arxRule_arxStep (laneOf s.v l) a b d r.amount

/-- Settles O46; 0 and the word of ones are fixed points of every rotation. -/
theorem vrotlIsRotlOnEveryLane : Obligations.VrotlIsRotlOnEveryLane := by
  refine ⟨fun a r => ⟨decode_encode (.vrotl a r), raisesUninit (.vrotl a r),
    illegalWithoutLane4 (i := .vrotl a r) rfl⟩, fun _ hop => decode_eq_none_of_rotl_unused (.inr hop),
    fun a r s u hs h4 hu => ⟨(laneOps wordOps).rotl u r.amount, ?_, fun l => ?_⟩⟩
  · rw [exec_of_ready _ s (ready_vrotl r hs h4 hu), effect, rotlStep, hu, lift_respects.rotl]
  · have lane : ((laneOps wordOps).rotl u r.amount)[l] = rotl32 u[l] r.amount := (lane_respects wordOps l).rotl u _
    refine ⟨lane, fun h => lane.trans ?_⟩
    rcases h with h | h <;> rw [h]
    · exact rotl32_zero _
    · exact rotl32_allOnes r

/-- Settles O47: lane by lane the quarter round is its four lines. -/
theorem vqrIsQrOnEveryLane : Obligations.VqrIsQrOnEveryLane := by
  refine ⟨fun a b c d => ⟨decode_encode (.vqr a b c d), raisesUninit (.vqr a b c d),
    illegalWithoutLane4 (i := .vqr a b c d) rfl⟩, fun _ hop => decode_eq_none_of_qr_unused (.inr hop),
    fun a b c d s h => ⟨_, exec_of_ready _ s h, fun l => ?_, fun i => quarterRound_other vecOps s.v a b c d i,
      fun l hzero => ?_⟩⟩ <;> rw [laneOf_quarterRound]
  · have lines := qrLines_quarterRound (laneOf s.v l) a b c d
    exact ⟨lines, qrRule_of_qrLines lines⟩
  · exact quarterRound_zero isZero_dataOps fun j hj => (laneOf_get s.v j l).trans (hzero j hj)

/-- Settles O48: lane by lane the double round is one pass over the columns and the diagonals. -/
theorem vdroundIsDoubleRoundOnEveryLane : Obligations.VdroundIsDoubleRoundOnEveryLane := by
  refine ⟨encodedOnlyAs_plain (i := .vdround) (by decide), raisesUninit .vdround,
    illegalWithoutLane4 (i := .vdround) rfl, fun s v hs h4 hv => ⟨doubleRound (laneOps wordOps) v, ?_, fun l => ?_⟩⟩
  · rw [exec_of_ready _ s (ready_vdround hs h4 hv), effect, hv, doubleRound_liftLanes]
  · refine ⟨laneOf_doubleRound wordOps v l, ?_⟩
    rw [laneOf_doubleRound, ← doubleRound_lift, doubleRound_eq_pass]
    exact qrChain_pass (lift (laneOf v l)) (columns ++ diagonals)

/-- Settles O49: on valid words the effect of VFEEDFWD adds lane by lane. -/
theorem vfeedfwdAddsVoToV : Obligations.VfeedfwdAddsVoToV := by
  refine ⟨encodedOnlyAs_plain (i := .vfeedfwd) (by decide), raisesUninit .vfeedfwd,
    illegalWithoutLane4 (i := .vfeedfwd) rfl,
    fun s v o hs h4 hv hvo => ⟨feedForward (laneOps wordOps) o v, ?_, feedForward_get_lane o v⟩⟩
  rw [exec_of_ready _ s (ready_vfeedfwd hs h4 hv hvo), effect, hv, hvo, feedForward_liftLanes]

/-- Settles O50: the effect of VGATHER, then the host's read of each block in KS4. -/
theorem vgatherDeinterleavesTheLanes : Obligations.VgatherDeinterleavesTheLanes := by
  refine ⟨encodedOnlyAs_plain (i := .vgather) (by decide), raisesUninit .vgather,
    illegalWithoutLane4 (i := .vgather) rfl,
    fun s v hs h4 hv => ⟨gather v, ?_, gather_get_get v, fun l t ht hks => ?_⟩⟩
  · rw [exec_of_ready _ s (ready_vgather hs h4 hv), effect, hv, gather_liftLanes]
  · exact readBlock_of_rd (fun _ _ => ht) fun j => by simp [State.rd, hks, lift]

/-- Settles O53: what each command leaves in lane l is a function of lane l of V and VO. -/
theorem lanesNeverInteract : Obligations.LanesNeverInteract := by
  intro i l s s' t t' hi hready hready' hv hvo ht ht'
  obtain rfl := Host.Outcome.next.inj ((exec_of_ready i s hready).symm.trans ht)
  obtain rfl := Host.Outcome.next.inj ((exec_of_ready i s' hready').symm.trans ht')
  rcases hi with hi | ⟨a, b, d, r, rfl⟩ | ⟨a, r, rfl⟩ | ⟨a, b, c, d, rfl⟩
  · obtain rfl | rfl | rfl : i = .vload ∨ i = .vdround ∨ i = .vfeedfwd := by simpa using hi
    · exact hvo
    · simp only [effect, vecOps, laneOf_doubleRound, hv]
    · simp only [effect, vecOps, laneOf_feedForward, hv, hvo]
  · simp only [effect, laneOf_arxStep, hv]
  · simp only [effect, laneOf_rotlStep, hv]
  · simp only [effect, laneOf_quarterRound, hv]

/-! ### The block function on four lanes -/

/-- Settles O51, by the effect of BLOCK4 on valid words. -/
theorem block4IsBlockOnEveryLane : Obligations.Block4IsBlockOnEveryLane := by
  refine ⟨encodedOnlyAs_plain (i := .block4) (by decide), raisesUninit .block4,
    illegalWithoutLane4 (i := .block4) rfl, fun s o hs h4 hvo => ⟨_, _, ?_, fun l w =>
      ⟨blockWords_get_lane o w l, gather_get_get _ l w⟩⟩⟩
  rw [exec_of_ready _ s (ready_block4 hs h4 hvo), effect_block4 hvo]

/-- Settles O52, by the effect of GEN4: that of INIT4 then BLOCK4, and CTR + 4. -/
theorem gen4MakesFourBlocksAndAdvances : Obligations.Gen4MakesFourBlocksAndAdvances := by
  refine ⟨encodedOnlyAs_plain (i := .gen4) (by decide), raisesUninit .gen4, illegalWithoutLane4 (i := .gen4) rfl,
    fun s k n c hs h4 hk hn hc => ?_⟩
  obtain ⟨o, hsteps, hlanes⟩ := effect_init4_block4 hk hn hc
  refine ⟨o, _, _, ?_, hlanes, fun l w => ⟨blockWords_get_lane o w l, gather_get_get _ l w⟩, ?_⟩
  · rw [exec_of_ready _ s (ready_gen4 hs h4 hk hn hc), effect_gen4 hc, hsteps]
  · rw [runCommands_init4_block4 (ready_init4 hs h4 hk hn hc), hsteps]

/-- Settles O54: both paths make the blocks for c, c + 1, c + 2, c + 3, each GEN at the CTR the one before it left. -/
theorem gen4EqualsFourGens : Obligations.Gen4EqualsFourGens := by
  intro s k n c hs h4 hk hn hc
  obtain ⟨_, _, gen⟩ := genMakesOneBlockAndAdvances
  obtain ⟨o, hsteps, hlanes⟩ := effect_init4_block4 hk hn hc
  have blocks (l : Lane) : (effect .gen4 s).ks4[l] =
      lift (blockWords wordOps (initWords k n (c + BitVec.ofNat 32 l.val))) := by
    rw [effect_gen4 hc, hsteps, ← hlanes]
    exact gather_blockWords_lift_get o l
  refine ⟨_, _, _, _, _, exec_of_ready _ s (ready_gen4 hs h4 hk hn hc), gen s k n c hs hk hn hc,
    gen _ k n (c + 1) hs hk hn rfl, gen _ k n (c + 1 + 1) hs hk hn rfl, gen _ k n (c + 1 + 1 + 1) hs hk hn rfl,
    vector_eq_of_get fun l => (blocks l).trans ?_, fun l => (blocks l).trans ?_, ?_, ?_⟩
  · fin_cases l <;> simp [BitVec.add_assoc]
  · simp [BitVec.ofNat_add]
  · simp [effect_gen4 hc, BitVec.add_assoc]
  · simp [effect_gen4 hc, BitVec.ofNat_add]

/-- Settles O56, each command by the effects of its steps or by one lane of its effect. -/
theorem laneCommandsEqualTheirSteps : Obligations.LaneCommandsEqualTheirSteps := by
  refine ⟨fun _ _ => runCommands_vrotl_four_by_eight, fun _ _ _ _ _ => runCommands_vqrAsVarx,
    fun s t u t' l h hu hx ht ht' => ?_, fun _ => runCommands_block4AsSteps, fun s o hs h4 hvo => ?_⟩
  · obtain ⟨_, _, hvalid⟩ := id h
    obtain ⟨v, hv⟩ := v_eq_liftLanes fun r hr => hvalid r (beq_iff_eq.mpr hr)
    have ready : Ready .dround u := ready_dround hu (hx.trans (hv ▸ laneOf_liftLanes v l))
    obtain rfl := Host.Outcome.next.inj ((exec_of_ready _ s h).symm.trans ht)
    obtain rfl := Host.Outcome.next.inj ((exec_of_ready _ u ready).symm.trans ht')
    exact effect_dround_x_of_lane hx
  · refine ⟨_, exec_of_ready _ s (ready_block4 hs h4 hvo), fun l => ?_⟩
    rw [effect_block4 hvo]
    exact gather_blockWords_lift_get o l

end Sys2Proof.Machine
end

section
/-! PROOF. Single accesses of the host that succeed: a register write, a command, the read of CAP (spec 46 R201 to
R206). -/

namespace Sys2Proof.Machine

/-- A procedure goes on with what an access that succeeds gives it. -/
theorem ok_bind {α β : Type} (a : α) (f : α → Except Refusal β) : (Except.ok a >>= f) = f a := rfl

/-- A write of a present writable register succeeds (20 R56). -/
theorem hostWrite_data {s : State} {r : Reg} (v : Word) (hp : Present s r) (hw : (BusReg.data r).readOnly = false) :
    hostWrite (.data r) v s = .ok (s.wr r v) := by
  simp [hostWrite, Config.accessBytes, memWrite_data v hp hw]

/-- A command that is ready has its effect when the host writes it to CMD (30 R80). -/
theorem hostCommand_of_ready {i : Instr} {s : State} (h : Ready i s) : hostCommand i s = .ok (effect i s) := by
  have hwrite : memWrite BusReg.cmd.offset Config.accessBytes (encode i) s = .next (effect i s) := by
    rw [← exec_of_ready i s h, ← command_of_decode s _ i (decode_encode i)]
    exact memWrite_cmd s (encode i)
  simp [hostCommand, hostWrite, hwrite]

theorem target_cap (s : State) : target s BusReg.cap.offset 4 = some .cap := by
  rw [target_of_legal s _ (by decide)]
  exact regAt_of_scalar _ (by decide)

/-- CAP answers in every state (10 R35). -/
theorem hostRead_cap (s : State) : hostRead .cap s = .ok s.capWord := by
  simp [hostRead, memRead, Config.accessBytes, target_cap]

theorem capWord_getLsbD_zero (s : State) : s.capWord.getLsbD 0 = s.hasLane4 := by
  unfold State.capWord
  cases s.hasLane4 <;> rfl

/-- The Dispatcher's choice is the build's (46 R206). -/
theorem dispatch_eq (key : Vector Byte 32) (nonce : Vector Byte 12) (c : Word) (inp : Bytes) (s : State) :
    dispatch key nonce c inp s =
      if s.hasLane4 then vectorized4Path key nonce c inp s else interleaved4Path key nonce c inp s := by
  rw [dispatch, hostRead_cap, ok_bind, capWord_getLsbD_zero]

end Sys2Proof.Machine
end

section
/-! PROOF. The keystream as bytes, and the exclusive or with it, cut at a block (spec 46 R202). -/

namespace Sys2Proof.Machine

/-- The first `len` bytes of the keystream of (key, nonce, c) (46 R202). -/
def keystream (key : Vector Byte 32) (nonce : Vector Byte 12) (c : Word) (len : Nat) : Bytes :=
  (List.range len).map (keystreamByte key nonce c)

/-- What `transform` must write for an input: each byte's exclusive or with the keystream (46 R202). -/
def xorKeystream (key : Vector Byte 32) (nonce : Vector Byte 12) (c : Word) (inp : Bytes) : Bytes :=
  inp.mapIdx (fun i b => b ^^^ keystreamByte key nonce c i)

/-- The state of the block for counter c (46 R202). -/
def keyState (key : Vector Byte 32) (nonce : Vector Byte 12) (c : Word) : Vector Word 16 :=
  initWords (tab (keyWord key)) (tab (nonceWord nonce)) c

variable {key : Vector Byte 32} {nonce : Vector Byte 12} {c : Word}

/-- The keystream from byte 64m on is that of a counter m greater (46 R202). -/
theorem keystreamByte_add (m i : Nat) :
    keystreamByte key nonce c (64 * m + i) = keystreamByte key nonce (c + BitVec.ofNat 32 m) i := by
  have hblock : (64 * m + i) / 64 = m + i / 64 := by omega
  have hbyte : (64 * m + i) % 4 = i % 4 := by omega
  have hword : (64 * m + i) % 64 = i % 64 := by omega
  simp only [keystreamByte, hblock, hbyte, hword, BitVec.ofNat_add, BitVec.add_assoc]

theorem keystream_append (m len : Nat) :
    keystream key nonce c (64 * m + len) =
      keystream key nonce c (64 * m) ++ keystream key nonce (c + BitVec.ofNat 32 m) len := by
  simp [keystream, List.range_add, Function.comp_def, keystreamByte_add]

/-- m blocks one after another are the keystream of 64m bytes (46 R202). -/
theorem flatten_blocks (m : Nat) :
    ((List.range m).map fun l => keystream key nonce (c + BitVec.ofNat 32 l) 64).flatten =
      keystream key nonce c (64 * m) := by
  induction m with
  | zero => rfl
  | succ m ih => simp [List.range_succ, ih, Nat.mul_succ, keystream_append]

theorem length_serialise (ws : List Word) : (serialise ws).length = 4 * ws.length := by
  simp [serialise, Nat.mul_comm]

/-- The bytes of the block for c are the first 64 of the keystream (41 R128; 46 R202). -/
theorem serialise_block_eq_keystream :
    serialise (blockWords wordOps (keyState key nonce c)).toList = keystream key nonce c 64 := by
  refine List.ext_getElem? fun i => ?_
  by_cases hi : i < 64
  · have hword : (blockWords wordOps (keyState key nonce c)).toList[i / 4]? =
        some (blockWords wordOps (keyState key nonce c))[i / 4] := by simp
    have hbyte := getElem?_serialise (k := i % 4) (by omega) hword
    rw [Nat.div_add_mod] at hbyte
    have hblock : i / 64 = 0 := by omega
    rw [hbyte]
    simp [keystream, hi, keystreamByte, hblock, Nat.mod_eq_of_lt hi, keyState, initWords]
  · rw [List.getElem?_eq_none (by simp [length_serialise]; omega), List.getElem?_eq_none (by simp [keystream]; omega)]

/-- The input up to byte 64m by m blocks of keystream, then the rest by the keystream m counters on (46 R203). -/
theorem xorKeystream_cut (m : Nat) (inp : Bytes) :
    xorBytes (inp.take (64 * m)) (keystream key nonce c (64 * m)) ++
        xorKeystream key nonce (c + BitVec.ofNat 32 m) (inp.drop (64 * m)) =
      xorKeystream key nonce c inp := by
  refine List.ext_getElem (by simp [xorBytes, xorKeystream, keystream]; omega) fun i _ hi => ?_
  have hlen : i < inp.length := by simpa [xorKeystream] using hi
  by_cases hcut : i < 64 * m
  · simp [xorBytes, xorKeystream, keystream, hlen, hcut]
  · have hbyte := keystreamByte_add (key := key) (nonce := nonce) (c := c) m (i - 64 * m)
    have hsum : 64 * m + (i - 64 * m) = i := by omega
    have hmin : min (64 * m) inp.length = 64 * m := by omega
    rw [hsum] at hbyte
    simp [List.getElem_append, xorBytes, xorKeystream, keystream, hcut, hmin, hbyte, hsum]

theorem xorKeystream_xorKeystream (inp : Bytes) :
    xorKeystream key nonce c (xorKeystream key nonce c inp) = inp :=
  List.ext_getElem (by simp [xorKeystream]) fun i _ _ => by simp [xorKeystream]

theorem length_xorKeystream (inp : Bytes) : (xorKeystream key nonce c inp).length = inp.length :=
  List.length_mapIdx

end Sys2Proof.Machine
end

section
/-! PROOF. The opening of a path leaves key, nonce and counter in the core (spec 46 R201, R203). -/

namespace Sys2Proof.Machine

/-- What a run of register writes leaves (20 R56). -/
def writes (l : List (Reg × Word)) (s : State) : State := l.foldl (fun t p => t.wr p.1 p.2) s

@[simp] theorem writes_status (l : List (Reg × Word)) (s : State) : (writes l s).status = s.status := by
  induction l generalizing s with
  | nil => rfl
  | cons p l ih => exact (ih _).trans (wr_status ..)

@[simp] theorem writes_hasLane4 (l : List (Reg × Word)) (s : State) : (writes l s).hasLane4 = s.hasLane4 := by
  induction l generalizing s with
  | nil => rfl
  | cons p l ih => exact (ih _).trans (wr_hasLane4 ..)

theorem rd_writes_of_not_mem {l : List (Reg × Word)} {s : State} {r : Reg} (h : r ∉ l.map Prod.fst) :
    (writes l s).rd r = s.rd r := by
  induction l generalizing s with
  | nil => rfl
  | cons p l ih =>
    obtain ⟨hp, hl⟩ := not_or.mp (mt List.mem_cons.mpr h)
    exact (ih hl).trans (rd_wr_ne s p.1 r p.2 hp)

/-- Of writes to different registers each one stays (20 R56). -/
theorem rd_writes_of_mem {l : List (Reg × Word)} {s : State} {r : Reg} {v : Word} (hl : (l.map Prod.fst).Nodup)
    (h : (r, v) ∈ l) : (writes l s).rd r = some v := by
  induction l generalizing s with
  | nil => cases h
  | cons p l ih =>
    obtain ⟨hp, hl⟩ := List.nodup_cons.mp hl
    obtain rfl | h := List.mem_cons.mp h
    · exact (rd_writes_of_not_mem hp).trans (rd_wr_same s r v)
    · exact ih hl h

/-- Writes of present writable registers succeed, in order (20 R56). -/
theorem writeAll_eq {l : List (Reg × Word)} {s : State}
    (h : ∀ p ∈ l, Present s p.1 ∧ (BusReg.data p.1).readOnly = false) : writeAll l s = .ok (writes l s) := by
  induction l generalizing s with
  | nil => rfl
  | cons p l ih =>
    obtain ⟨⟨hp, hw⟩, hl⟩ := List.forall_mem_cons.mp h
    have rest := ih (s := s.wr p.1 p.2) fun q hq => ⟨present_wr (hl q hq).1 p.1 p.2, (hl q hq).2⟩
    rwa [writeAll, hostWrite_data p.2 hp hw, ok_bind]

/-- The registers LoadKeyNonce writes, with their words (46 R201). -/
def keyNonceWrites (key : Vector Byte 32) (nonce : Vector Byte 12) : List (Reg × Word) :=
  (List.finRange 8).map (fun j => (Reg.k j, keyWord key j)) ++
    (List.finRange 3).map (fun j => (Reg.n j, nonceWord nonce j))

variable {key : Vector Byte 32} {nonce : Vector Byte 12}

theorem mem_keyNonceWrites {p : Reg × Word} : p ∈ keyNonceWrites key nonce ↔
    (∃ j, (Reg.k j, keyWord key j) = p) ∨ ∃ j, (Reg.n j, nonceWord nonce j) = p := by
  simp [keyNonceWrites]

theorem keyNonceWrites_nodup : ((keyNonceWrites key nonce).map Prod.fst).Nodup := by
  have regs : (keyNonceWrites key nonce).map Prod.fst = (List.finRange 8).map Reg.k ++ (List.finRange 3).map Reg.n := by
    simp [keyNonceWrites, Function.comp_def]
  rw [regs]
  decide

/-- LoadKeyNonce succeeds on every core: K and N are writable and in every build (46 R201, R210). -/
theorem loadKeyNonce_eq (s : State) : loadKeyNonce key nonce s = .ok (writes (keyNonceWrites key nonce) s) := by
  refine writeAll_eq fun p hp => ?_
  obtain ⟨j, rfl⟩ | ⟨j, rfl⟩ := mem_keyNonceWrites.mp hp <;> exact ⟨nofun, rfl⟩

/-- A core of the build `lane4` that a path has opened: no fault, the words of key and nonce in K and N, and the counter
c (46 R201, R203). -/
structure Keyed (lane4 : Bool) (key : Vector Byte 32) (nonce : Vector Byte 12) (c : Word) (s : State) : Prop where
  status : s.status = none
  hasLane4 : s.hasLane4 = lane4
  k : s.k = lift (tab (keyWord key))
  n : s.n = lift (tab (nonceWord nonce))
  ctr : s.ctr = some c

theorem keyed_of_rd {lane4 : Bool} {c : Word} {s : State} (hs : s.status = none) (hlane : s.hasLane4 = lane4)
    (hk : ∀ j, s.rd (.k j) = some (keyWord key j)) (hn : ∀ j, s.rd (.n j) = some (nonceWord nonce j))
    (hc : s.rd .ctr = some c) : Keyed lane4 key nonce c s where
  status := hs
  hasLane4 := hlane
  k := vector_eq_of_get fun j => (hk j).trans (by simp [lift])
  n := vector_eq_of_get fun j => (hn j).trans (by simp [lift])
  ctr := hc

/-- LoadKeyNonce and the CTR write open a path on every core with no fault (46 R201, R203). -/
theorem keyed_open {s : State} (c : Word) (hs : s.status = none) :
    Keyed s.hasLane4 key nonce c ((writes (keyNonceWrites key nonce) s).wr .ctr c) := by
  refine keyed_of_rd (by simp [hs]) (by simp) (fun j => ?_) (fun j => ?_) (rd_wr_same _ _ _)
  · exact (rd_wr_ne _ .ctr (.k j) c nofun).trans
      (rd_writes_of_mem keyNonceWrites_nodup (mem_keyNonceWrites.mpr (.inl ⟨j, rfl⟩)))
  · exact (rd_wr_ne _ .ctr (.n j) c nofun).trans
      (rd_writes_of_mem keyNonceWrites_nodup (mem_keyNonceWrites.mpr (.inr ⟨j, rfl⟩)))

end Sys2Proof.Machine
end

section
/-! PROOF. GEN and GEN4 as makers of keystream blocks (spec 46 R203 to R205; 43 R150; 44 R180). -/

namespace Sys2Proof.Machine

/-- Every run of `make` on an opened core gives the next m blocks of the keystream and counts CTR on by m. -/
def MakesBlocks (lane4 : Bool) (key : Vector Byte 32) (nonce : Vector Byte 12) (m : Nat)
    (make : State → Except Refusal (Bytes × State)) : Prop :=
  ∀ c s, Keyed lane4 key nonce c s →
    ∃ t, make s = .ok (keystream key nonce c (64 * m), t) ∧ Keyed lane4 key nonce (c + BitVec.ofNat 32 m) t

variable {lane4 : Bool} {key : Vector Byte 32} {nonce : Vector Byte 12}

/-- GEN makes one block (46 R203). -/
theorem makesBlocks_genBlock : MakesBlocks lane4 key nonce 1 genBlock := by
  intro c s ⟨hs, hlane, hk, hn, hc⟩
  have heffect := effect_gen hk hn hc
  have hread : readBlock Reg.ks (effect .gen s) = .ok (keystream key nonce c 64) := by
    rw [← serialise_block_eq_keystream]
    refine readBlock_of_rd (fun _ => nofun) fun j => ?_
    rw [heffect]
    exact lift_get _ j
  refine ⟨effect .gen s, ?_, hs, hlane, hk, hn, by rw [heffect]; rfl⟩
  rw [genBlock, hostCommand_of_ready (ready_gen hs hk hn hc), ok_bind, hread]
  rfl

/-- n times GEN make n blocks, each read before the next (46 R204). -/
theorem makesBlocks_genBlocks (n : Nat) : MakesBlocks lane4 key nonce n (genBlocks n) := by
  induction n with
  | zero => exact fun c s h => ⟨s, rfl, by simpa using h⟩
  | succ n ih =>
    intro c s h
    obtain ⟨t, hfirst, ht⟩ := makesBlocks_genBlock c s h
    obtain ⟨u, hrest, hu⟩ := ih _ t ht
    have hcount : c + BitVec.ofNat 32 1 + BitVec.ofNat 32 n = c + BitVec.ofNat 32 (n + 1) := by
      rw [BitVec.add_assoc, ← BitVec.ofNat_add, Nat.add_comm]
    refine ⟨u, ?_, hcount ▸ hu⟩
    have hbytes : 64 * (n + 1) = 64 * 1 + 64 * n := by omega
    simp only [genBlocks, hfirst, ok_bind, hrest, hbytes, keystream_append]
    rfl

/-- On valid words GEN4 leaves in KS4[l] the block for counter c + l (44 R180). -/
theorem effect_gen4_ks4 {s : State} {k : Vector Word 8} {n : Vector Word 3} {c : Word} (hk : s.k = lift k)
    (hn : s.n = lift n) (hc : s.ctr = some c) (l : Lane) :
    (effect .gen4 s).ks4[l] = lift (blockWords wordOps (initWords k n (c + BitVec.ofNat 32 l.val))) := by
  obtain ⟨o, hsteps, hlanes⟩ := effect_init4_block4 hk hn hc
  rw [effect_gen4 hc, hsteps, ← hlanes]
  exact gather_blockWords_lift_get o l

/-- With the 4-lane generator GEN4 makes four blocks (46 R205). -/
theorem makesBlocks_gen4Blocks : MakesBlocks true key nonce 4 gen4Blocks := by
  intro c s ⟨hs, hlane, hk, hn, hc⟩
  have hread : (fun l => readBlock (Reg.ks4 l) (effect .gen4 s)) =
      fun l => pure (keystream key nonce (c + BitVec.ofNat 32 l.val) 64) := by
    funext l
    rw [← serialise_block_eq_keystream]
    refine readBlock_of_rd (fun _ _ => hlane) fun j => ?_
    rw [State.rd, effect_gen4_ks4 hk hn hc]
    exact lift_get _ j
  refine ⟨effect .gen4 s, ?_, hs, hlane, hk, hn, by rw [effect_gen4 hc]; rfl⟩
  rw [gen4Blocks, hostCommand_of_ready (ready_gen4 hs hlane hk hn hc), ok_bind, hread, List.mapM_pure,
    ← flatten_blocks]
  rfl

end Sys2Proof.Machine
end

section
/-! PROOF. The loops of the paths write the exclusive or with the keystream, and so do the paths (spec 46 R203 to
R207). -/

namespace Sys2Proof.Machine

/-- The counter after an input: one for each 64 bytes or part of them (46 R207). -/
def counterAfter (c : Word) (inp : Bytes) : Word := c + BitVec.ofNat 32 ((inp.length + 63) / 64)

/-- On an opened core a procedure gives the input's exclusive or with the keystream, and counts CTR on (46 R207). -/
def XorsKeystream (lane4 : Bool) (key : Vector Byte 32) (nonce : Vector Byte 12) (inp : Bytes)
    (proc : State → Except Refusal (Bytes × State)) : Prop :=
  ∀ c s, Keyed lane4 key nonce c s →
    ∃ t, proc s = .ok (xorKeystream key nonce c inp, t) ∧ Keyed lane4 key nonce (counterAfter c inp) t

/-- One round of a loop: m blocks from `make` for the first 64m bytes of the input, then `rest`. -/
def loopRound (m : Nat) (make rest : State → Except Refusal (Bytes × State)) (inp : Bytes) (s : State) :
    Except Refusal (Bytes × State) := do
  let (ks, t) ← make s
  let (out, u) ← rest t
  return (xorBytes (inp.take (64 * m)) ks ++ out, u)

variable {lane4 : Bool} {key : Vector Byte 32} {nonce : Vector Byte 12}

theorem counterAfter_drop {m : Nat} {inp : Bytes} (c : Word) (hm : 64 * m < inp.length + 64) :
    counterAfter (c + BitVec.ofNat 32 m) (inp.drop (64 * m)) = counterAfter c inp := by
  have hcount : (inp.length + 63) / 64 = m + (inp.length - 64 * m + 63) / 64 := by omega
  rw [counterAfter, counterAfter, List.length_drop, BitVec.add_assoc, ← BitVec.ofNat_add, hcount]

/-- A round that uses no more blocks than the input needs does its part of the work (46 R203 to R205). -/
theorem xorsKeystream_round {m : Nat} {make rest : State → Except Refusal (Bytes × State)} {inp : Bytes}
    (hmake : MakesBlocks lane4 key nonce m make) (hm : 64 * m < inp.length + 64)
    (hrest : XorsKeystream lane4 key nonce (inp.drop (64 * m)) rest) :
    XorsKeystream lane4 key nonce inp (loopRound m make rest inp) := by
  intro c s hs
  obtain ⟨t, hks, ht⟩ := hmake c s hs
  obtain ⟨u, hout, hu⟩ := hrest _ t ht
  refine ⟨u, ?_, counterAfter_drop c hm ▸ hu⟩
  simp only [loopRound, hks, ok_bind, hout, ← xorKeystream_cut m inp]
  rfl

theorem blockLoop_nil (fuel : Nat) : blockLoop fuel [] = fun s => .ok ([], s) := by
  cases fuel <;> rfl

theorem blockLoop_succ {inp : Bytes} (fuel : Nat) (h : inp ≠ []) :
    blockLoop (fuel + 1) inp = loopRound 1 genBlock (blockLoop fuel (inp.drop (64 * 1))) inp :=
  funext fun _ => if_neg h

/-- ScalarPath's loop and Tail, for any fuel that the input does not outlast (46 R203, R204). -/
theorem xorsKeystream_blockLoop {fuel : Nat} {inp : Bytes} (hf : inp.length ≤ fuel) :
    XorsKeystream lane4 key nonce inp (blockLoop fuel inp) := by
  induction fuel generalizing inp with
  | zero =>
    obtain rfl := List.eq_nil_of_length_eq_zero (Nat.le_zero.mp hf)
    exact fun c s hs => ⟨s, rfl, by simpa [counterAfter] using hs⟩
  | succ fuel ih =>
    by_cases hnil : inp = []
    · rw [hnil, blockLoop_nil]
      exact fun c s hs => ⟨s, rfl, by simpa [counterAfter] using hs⟩
    · have hpos := List.length_pos_iff.mpr hnil
      rw [blockLoop_succ fuel hnil]
      exact xorsKeystream_round makesBlocks_genBlock (by omega) (ih (by simp; omega))

theorem superLoop_tail {four : State → Except Refusal (Bytes × State)} {inp : Bytes} (fuel : Nat)
    (h : inp.length < 256) : superLoop four fuel inp = blockLoop inp.length inp := by
  cases fuel with
  | zero => rfl
  | succ fuel => exact funext fun _ => if_pos h

theorem superLoop_succ {four : State → Except Refusal (Bytes × State)} {inp : Bytes} (fuel : Nat)
    (h : ¬ inp.length < 256) :
    superLoop four (fuel + 1) inp = loopRound 4 four (superLoop four fuel (inp.drop (64 * 4))) inp :=
  funext fun _ => if_neg h

/-- Super-blocks and Tail, whichever way the four blocks are made (46 R204, R205). -/
theorem xorsKeystream_superLoop {four : State → Except Refusal (Bytes × State)}
    (hfour : MakesBlocks lane4 key nonce 4 four) {fuel : Nat} {inp : Bytes} :
    XorsKeystream lane4 key nonce inp (superLoop four fuel inp) := by
  induction fuel generalizing inp with
  | zero => exact xorsKeystream_blockLoop le_rfl
  | succ fuel ih =>
    by_cases htail : inp.length < 256
    · rw [superLoop_tail _ htail]
      exact xorsKeystream_blockLoop le_rfl
    · rw [superLoop_succ fuel htail]
      exact xorsKeystream_round hfour (by omega) ih

/-- How a path ends from s: no fault, a zero length leaves the core alone, any other counts CTR on (46 R207, R210). -/
structure PathEnd (c : Word) (inp : Bytes) (s t : State) : Prop where
  status : t.status = none
  nil : inp = [] → t = s
  ctr : inp ≠ [] → t.ctr = some (counterAfter c inp)

variable {s : State}

/-- A path whose loop does its work gives the exclusive or with the keystream, from every state with no fault
(46 R203 to R205). -/
theorem runPath_xorKeystream {loop : Bytes → State → Except Refusal (Bytes × State)} {inp : Bytes} (c : Word)
    (hs : s.status = none) (hloop : XorsKeystream s.hasLane4 key nonce inp (loop inp)) :
    ∃ t, runPath loop key nonce c inp s = .ok (xorKeystream key nonce c inp, t) ∧ PathEnd c inp s t := by
  by_cases hnil : inp = []
  · exact ⟨s, by rw [runPath, if_pos hnil, hnil]; rfl, hs, fun _ => rfl, fun h => absurd hnil h⟩
  · obtain ⟨t, hrun, ht⟩ := hloop c _ (keyed_open c hs)
    refine ⟨t, ?_, ht.status, fun h => absurd h hnil, fun _ => ht.ctr⟩
    rwa [runPath, if_neg hnil, loadKeyNonce_eq, ok_bind, hostWrite_data (r := .ctr) c nofun rfl, ok_bind]

variable (key nonce)

theorem scalarPath_xorKeystream (c : Word) (inp : Bytes) (hs : s.status = none) :
    ∃ t, scalarPath key nonce c inp s = .ok (xorKeystream key nonce c inp, t) ∧ PathEnd c inp s t :=
  runPath_xorKeystream c hs (xorsKeystream_blockLoop le_rfl)

theorem interleaved4Path_xorKeystream (c : Word) (inp : Bytes) (hs : s.status = none) :
    ∃ t, interleaved4Path key nonce c inp s = .ok (xorKeystream key nonce c inp, t) ∧ PathEnd c inp s t :=
  runPath_xorKeystream c hs (xorsKeystream_superLoop (makesBlocks_genBlocks 4))

theorem vectorized4Path_xorKeystream (c : Word) (inp : Bytes) (hs : s.status = none) (h4 : s.hasLane4 = true) :
    ∃ t, vectorized4Path key nonce c inp s = .ok (xorKeystream key nonce c inp, t) ∧ PathEnd c inp s t :=
  runPath_xorKeystream c hs (h4 ▸ xorsKeystream_superLoop makesBlocks_gen4Blocks)

/-- Whichever path the build gives the Dispatcher (46 R206, R207). -/
theorem dispatch_xorKeystream (c : Word) (inp : Bytes) (hs : s.status = none) :
    ∃ t, dispatch key nonce c inp s = .ok (xorKeystream key nonce c inp, t) ∧ PathEnd c inp s t := by
  rw [dispatch_eq]
  split
  next h4 => exact vectorized4Path_xorKeystream key nonce c inp hs h4
  next => exact interleaved4Path_xorKeystream key nonce c inp hs

end Sys2Proof.Machine
end

section
/-! PROOF. The statements about the host procedures (spec 46). -/

namespace Sys2Proof.Machine

/-- Settles O57, by ScalarPath's loop on the core its opening leaves. -/
theorem scalarPathXorsTheKeystream : Obligations.ScalarPathXorsTheKeystream := by
  refine ⟨fun _ _ _ _ => rfl, fun key nonce c inp s hs hne => ?_⟩
  obtain ⟨t, hrun, ht⟩ := scalarPath_xorKeystream key nonce c inp hs
  exact ⟨t, hrun, ht.status, ht.ctr hne⟩

/-- Settles O58: the paths differ only in how they make four blocks, and GEN and GEN4 both make the keystream's. -/
theorem allPathsWriteTheSameBytes : Obligations.AllPathsWriteTheSameBytes := by
  intro key nonce c inp s hs
  obtain ⟨t, hscalar, ht⟩ := scalarPath_xorKeystream key nonce c inp hs
  obtain ⟨u, hinter, hu⟩ := interleaved4Path_xorKeystream key nonce c inp hs
  obtain ⟨v, hdispatch, hv⟩ := dispatch_xorKeystream key nonce c inp hs
  refine ⟨t, u, v, hscalar, hinter, hdispatch, fun h4 => by rw [dispatch_eq, if_pos h4], fun h4 => ?_,
    fun h => ⟨ht.nil h, hu.nil h, hv.nil h⟩,
    fun h => ⟨ht.ctr h, (hu.ctr h).trans (ht.ctr h).symm, (hv.ctr h).trans (ht.ctr h).symm⟩,
    ht.status, hu.status, hv.status⟩
  rw [dispatch_eq, if_neg (by simp [h4]), hinter] at hdispatch
  exact congrArg Prod.snd (Except.ok.inj hdispatch.symm)

/-- In place, `transform` puts the exclusive or with the keystream where the input stood (46 R202, R208). -/
theorem transform_in_place (key : Vector Byte 32) (nonce : Vector Byte 12) (c : Word) {pre buf post : Bytes} {s : State}
    (hs : s.status = none) :
    ∃ t, transform (pre ++ buf ++ post) pre.length pre.length buf.length key nonce c s =
      .ok (pre ++ xorKeystream key nonce c buf ++ post, t) := by
  obtain ⟨t, hrun, -⟩ := dispatch_xorKeystream key nonce c buf hs
  refine ⟨t, ?_⟩
  rw [transform, if_neg (by simp [partlyOverlap]), if_neg (by simp)]
  simp [hrun, ok_bind, pure, Except.pure]

/-- Settles O59: in place twice is the exclusive or with one keystream twice. -/
theorem transformUndoesItself : Obligations.TransformUndoesItself := by
  refine ⟨fun key nonce c mem p len s u hs hu hlen => ?_, fun key nonce c mem o p len s hop hpo => ?_⟩
  · obtain ⟨pre, buf, post, rfl, rfl, rfl⟩ : ∃ pre buf post : Bytes,
        mem = pre ++ buf ++ post ∧ p = pre.length ∧ len = buf.length :=
      ⟨mem.take p, (mem.drop p).take len, (mem.drop p).drop len, by simp, by simp; omega, by simp; omega⟩
    obtain ⟨t, hfirst⟩ := transform_in_place key nonce c (pre := pre) (buf := buf) (post := post) hs
    obtain ⟨v, hsecond⟩ := transform_in_place key nonce c (pre := pre) (buf := xorKeystream key nonce c buf)
      (post := post) hu
    rw [length_xorKeystream, xorKeystream_xorKeystream] at hsecond
    exact ⟨_, t, v, hfirst, hsecond⟩
  · have hoverlap : partlyOverlap o p len = true ∧ partlyOverlap p o len = true := by
      simp [partlyOverlap]
      omega
    exact ⟨if_pos hoverlap.1, if_pos hoverlap.2⟩

end Sys2Proof.Machine
end

section
/-! PROOF. Faults: nothing stops the core, a fault is precise, and the first one sticks until reset (spec 60 R220 to
R234). -/

namespace Sys2Proof.Machine

/-! ### Every operation answers a next state (60 R221) -/

theorem exists_exec (i : Instr) (s : State) : ∃ t, exec i s = .next t := by
  rcases exec_cases i s with ⟨_, h⟩ | ⟨_, _, h⟩ | ⟨_, h⟩ | ⟨_, _, _, h⟩ <;> exact ⟨_, h⟩

theorem exists_command (c : Word) (s : State) : ∃ t, command c s = .next t := by
  rcases command_cases c s with ⟨_, h⟩ | ⟨_, _, h⟩ | ⟨i, _, _, h⟩
  · exact ⟨_, h⟩
  · exact ⟨_, h⟩
  · exact h ▸ exists_exec i s

theorem exists_memWrite (off : Offset) (n : Nat) (v : Word) (s : State) : ∃ t, memWrite off n v s = .next t := by
  rcases memWrite_cases off n v s with ⟨_, h⟩ | ⟨_, _, _, h⟩ | ⟨_, h⟩
  · exact h ▸ exists_command v s
  · exact ⟨_, h⟩
  · exact ⟨_, h⟩

/-- Settles O11: of a step's cases only the bus write needs an argument, and it ends in one of a command's answers. -/
theorem nothingStopsTheCore : Obligations.NothingStopsTheCore := by
  refine ⟨exists_exec, fun s => ?_⟩
  rcases step_cases s with ⟨_, h⟩ | ⟨_, _, _, _, h⟩ | ⟨off, n, v, rest, _, h⟩ | ⟨_, _, h⟩
  · exact ⟨_, h⟩
  · exact ⟨_, h⟩
  · exact h ▸ exists_memWrite off n v _
  · exact ⟨_, h⟩

/-! ### Reads of registers without a value and of control registers (60 R228) -/

/-- A read of a present register whose valid bit is 0 raises UNINIT_READ (60 R228). -/
theorem memRead_uninit {s : State} {r : Reg} (hp : Present s r) (hr : s.rd r = none) :
    memRead (BusReg.data r).offset 4 s =
      (s.raise .uninitRead (accessInfo false (BusReg.data r).offset), .busErrorResponse) := by
  simp [memRead, target_reg s r hp, hr]

/-- Every build maps the scalar part alike (20 R51). -/
theorem target_of_scalar (s : State) {off : Offset} (ha : off.extractLsb' 0 2 = 0) (hoff : off.toNat < 0x200) :
    target s off 4 = scalarRegAt (off.toNat / 4) :=
  (target_of_legal s off ha).trans (regAt_of_scalar _ hoff)

/-- CAP, STATUS and FINFO have no valid bit: they always answer (60 R228). -/
theorem memRead_control (s : State) :
    memRead 0x000 4 s = (s, .data s.capWord) ∧ memRead 0x004 4 s = (s, .data s.statusWord) ∧
      memRead 0x00C 4 s = (s, .data s.finfo) := by
  have hcap : target s 0x000 4 = some .cap := target_of_scalar s (by decide) (by decide)
  have hstatus : target s 0x004 4 = some .status := target_of_scalar s (by decide) (by decide)
  have hfinfo : target s 0x00C 4 = some .finfo := target_of_scalar s (by decide) (by decide)
  simp only [memRead, hcap, hstatus, hfinfo, and_self]

/-- Settles O14, by the valid bit of the register read; CTR after reset is the register without a value of the rule's
example. -/
theorem readsGiveValuesOrUninitRead : Obligations.ReadsGiveValuesOrUninitRead := by
  refine ⟨fun _ _ _ => memRead_data, fun s r hp hr => ⟨_, memRead_uninit hp hr, ?_⟩, memRead_control, fun b => ?_⟩
  · rw [accessInfo_read]
    exact records_raise s _ _
  · exact ⟨_, memRead_uninit (r := .ctr) nofun (rd_resetWith b .ctr), rfl, rfl⟩

/-! ### A fault is recorded with nothing else changed (60 R223, R230) -/

/-- A command leaves STATUS and FINFO, or it is the first fault and changes no register (60 R223, R230). -/
theorem exec_fault_cases {i : Instr} {s t : State} (h : exec i s = .next t) :
    (t.status = s.status ∧ t.finfo = s.finfo) ∨ (s.status = none ∧ t.status ≠ none ∧ ∀ r, t.rd r = s.rd r) := by
  rcases exec_cases i s with ⟨_, he⟩ | ⟨hs, _, he⟩ | ⟨_, he⟩ | ⟨hs, _, _, he⟩ <;>
    obtain rfl := Host.Outcome.next.inj (he.symm.trans h)
  · exact .inl ⟨rfl, rfl⟩
  · exact .inr ⟨hs, Option.some_ne_none _, rd_with_fault s _ _⟩
  · obtain ⟨_, hstatus, hfinfo, _, _⟩ := effect_keeps i s
    exact .inl ⟨hstatus, hfinfo⟩
  · exact .inr ⟨hs, Option.some_ne_none _, rd_with_fault s _ _⟩

/-- A step but a reset leaves STATUS and FINFO, or it is the first fault and changes no register (60 R223, R230). -/
theorem step_fault_cases {s t : State} (hn : NoReset s) (ht : step s = .next t) :
    (t.status = s.status ∧ t.finfo = s.finfo) ∨ (s.status = none ∧ t.status ≠ none ∧ ∀ r, t.rd r = s.rd r) := by
  rcases step_effects s t hn ht with ⟨r, v, rest, _, _, _, rfl⟩ | ⟨w, i, rest, _, _, he⟩ | ⟨_, hrd, hkept | ⟨hs, ht⟩⟩
  · exact .inl ⟨wr_status .., wr_finfo ..⟩
  · rcases exec_fault_cases he with hkept | ⟨hs, ht, hrd⟩
    · exact .inl hkept
    · exact .inr ⟨hs, ht, fun r => (hrd r).trans (rd_with_pending s rest r)⟩
  · exact .inl hkept
  · exact .inr ⟨hs, ht, hrd⟩

/-- Settles O23: a step that changes STATUS or FINFO is the one that records the first fault. -/
theorem faultsArePrecise : Obligations.FaultsArePrecise := by
  intro s t hn ht hchanged
  rcases step_fault_cases hn ht with ⟨hstatus, hfinfo⟩ | ⟨hs, hfault, hrd⟩
  · exact absurd hchanged (by simp [hstatus, hfinfo])
  · exact ⟨hs, hfault, step_hasLane4 ht, hrd⟩

/-! ### While a fault is recorded (60 R231, R234) -/

section Faulted

variable {s : State} (hs : s.status ≠ none)

include hs

/-- A command is discarded undecoded (60 R231). -/
theorem command_of_faulted (c : Word) : command c s = .next s := by
  rcases command_cases c s with ⟨_, h⟩ | ⟨h0, _⟩ | ⟨_, h0, _⟩
  · exact h
  · exact absurd h0 hs
  · exact absurd h0 hs

/-- A read that would raise BUS_ERROR only fails (60 R231). -/
theorem memRead_fails_of_faulted {off : Offset} {n : Nat}
    (h : target s off n = none ∨ target s off n = some .cmd) : memRead off n s = (s, .busErrorResponse) := by
  rw [memRead_raises h, raise_of_faulted s _ _ hs]

/-- A write that would raise BUS_ERROR changes nothing (60 R231). -/
theorem memWrite_fails_of_faulted {off : Offset} {n : Nat} (v : Word)
    (h : ∀ b, target s off n = some b → b.readOnly = true) : memWrite off n v s = .next s := by
  rw [memWrite_raises v h, raise_of_faulted s _ _ hs]

/-- A read that would raise UNINIT_READ only fails (60 R231). -/
theorem memRead_uninit_of_faulted {r : Reg} (hp : Present s r) (hr : s.rd r = none) :
    memRead (BusReg.data r).offset 4 s = (s, .busErrorResponse) := by
  rw [memRead_uninit hp hr, raise_of_faulted s _ _ hs]

/-- No step but a reset records another fault (60 R223, R234). -/
theorem step_of_faulted {t : State} (hn : NoReset s) (ht : step s = .next t) :
    t.status = s.status ∧ t.finfo = s.finfo := by
  rcases step_fault_cases hn ht with hkept | ⟨h0, _⟩
  · exact hkept
  · exact absurd h0 hs

end Faulted

/-- Settles O16, access by access: what does not raise is as without a fault, what would raise leaves the core as it
was. -/
theorem firstFaultSticksUntilReset : Obligations.FirstFaultSticksUntilReset := by
  refine ⟨fun s w hs => ?cmdWrite, fun s r v _ hp hw => ?dataWrite, fun _ _ _ _ => memRead_data,
    fun _ _ hs => memRead_uninit_of_faulted hs, fun s hs => ?control, fun s off n v hs h => ?badAccess,
    fun s b v hs hb => ?readOnly, fun _ _ hs => step_of_faulted hs, fun s rest hp => ⟨_, step_of_reset hp, rfl⟩⟩
  case cmdWrite => rw [memWrite_cmd, command_of_faulted hs]
  case dataWrite =>
    exact ⟨s.wr r v, memWrite_data v hp hw, rd_wr_same s r v, fun q hq => rd_wr_ne s r q v hq,
      wr_status .., wr_finfo ..⟩
  case control =>
    obtain ⟨hcap, hstatus, hfinfo⟩ := memRead_control s
    exact ⟨hcap, hstatus, hfinfo, memRead_fails_of_faulted hs (.inr (target_cmd s))⟩
  case badAccess =>
    have unreached : target s off n = none := target_eq_none_iff.mpr h
    exact ⟨memRead_fails_of_faulted hs (.inl unreached),
      memWrite_fails_of_faulted hs v fun b hb => (by cases unreached.symm.trans hb)⟩
  case readOnly => rw [memWrite_readOnly s b v hb, raise_of_faulted s _ _ hs]

end Sys2Proof.Machine
end

section
/-! PROOF. Reset as the host's next action (spec 70 R250). -/

namespace Sys2Proof.Machine

/-- Settles O18: the step of a reset leaves the reset core, with the host's list and answers as they were. -/
theorem resetClearsTheCore : Obligations.ResetClearsTheCore :=
  fun _ _ hp => ⟨_, step_of_reset hp, rd_resetCore _, statusWord_of_none rfl, rfl, rfl, capWord_congr rfl, rfl, rfl⟩

end Sys2Proof.Machine
end

section
/-! PROOF. The 20 rounds are invertible, since each line of a quarter round on different words is (spec 00 §5,
Permutation; 40 R102, R106). -/

namespace Sys2Proof.Machine

/-- Different words have different rotations: the rest of the turn gives the word back (00 R12). -/
theorem rotl32_injective {n : Nat} (hn : n ≤ 32) : Function.Injective (rotl32 · n) :=
  Function.LeftInverse.injective (g := (rotl32 · (32 - n))) fun v =>
    calc rotl32 (rotl32 v n) (32 - n)
      _ = rotl32 v (n + (32 - n)) := rotl32_rotl32 v (by omega)
      _ = v := by rw [Nat.add_sub_of_le hn, rotl32_whole]

/-- An ARX step with a different from b and d is injective: the sum it leaves in X[a] tells X[d] from the rotated
exclusive or, and with X[b] it tells X[a] (40 R102). With a = d or a = b it is not: X[a] is lost, or its top bit. -/
theorem arxStep_injective {a b d : Index} {n : Nat} (hab : a ≠ b) (had : a ≠ d) (hn : n ≤ 32) :
    Function.Injective (arxStep wordOps · a b d n) := by
  intro x y h
  have get (j : Index) : (arxStep wordOps x a b d n)[j] = (arxStep wordOps y a b d n)[j] := congrArg (·[j]) h
  have sum : x[a] + x[b] = y[a] + y[b] := by
    have ha := get a
    rwa [arxStep_get_a _ _ _ _ had, arxStep_get_a _ _ _ _ had] at ha
  have word_d : x[d] = y[d] := by
    have hd := get d
    rw [arxStep_get_d, arxStep_get_d, if_neg had, if_neg had] at hd
    have hxor : x[d] ^^^ (x[a] + x[b]) = y[d] ^^^ (y[a] + y[b]) := rotl32_injective hn hd
    rwa [sum, BitVec.xor_left_inj] at hxor
  have other (j : Index) (hj : a ≠ j) : x[j] = y[j] := by
    by_cases hjd : j = d
    · exact hjd ▸ word_d
    · have h := get j
      rwa [arxStep_other _ _ _ _ _ _ _ hj.symm hjd, arxStep_other _ _ _ _ _ _ _ hj.symm hjd] at h
  have word_a : x[a] = y[a] := by rwa [other b hab, BitVec.add_left_inj] at sum
  refine vector_eq_of_get fun j => ?_
  by_cases hj : a = j
  · exact hj ▸ word_a
  · exact other j hj

/-- The quarter round on four different words is injective, line by line (40 R106). -/
theorem quarterRound_injective {a b c d : Index} (h : [a, b, c, d].Nodup) :
    Function.Injective (quarterRound wordOps · a b c d) := by
  obtain ⟨⟨hab, -, had⟩, ⟨hbc, -⟩, hcd⟩ : (a ≠ b ∧ a ≠ c ∧ a ≠ d) ∧ (b ≠ c ∧ b ≠ d) ∧ c ≠ d := by simpa using h
  have line1 (n : Nat) (hn : n ≤ 32) := arxStep_injective hab had hn
  have line2 (n : Nat) (hn : n ≤ 32) := arxStep_injective hcd hbc.symm hn
  exact (line2 7 (by decide)).comp <| (line1 8 (by decide)).comp <| (line2 12 (by decide)).comp (line1 16 (by decide))

/-- A pass over quadruples of different words is injective (40 R109). -/
theorem pass_injective {qs : List (Index × Index × Index × Index)} (h : ∀ q ∈ qs, (quadIndices q).Nodup) :
    Function.Injective (pass wordOps · qs) := by
  induction qs with
  | nil => exact fun _ _ hxy => hxy
  | cons q qs ih =>
    obtain ⟨hq, hqs⟩ := List.forall_mem_cons.mp h
    exact (ih hqs).comp (quarterRound_injective hq)

/-- Each quadruple of a double round names four different words (40 R108). -/
theorem quadIndices_nodup : ∀ q ∈ columns ++ diagonals, (quadIndices q).Nodup := by
  simp [columns, diagonals, quadIndices]

/-- Settles O35: the 20 rounds are one pass of 80 quarter rounds, each on four different words. -/
theorem permutationIsInjective : Obligations.PermutationIsInjective := by
  intro x y h
  obtain ⟨-, eighty, -⟩ := tenDroundsAreEightyQuarterRounds
  rw [eighty, eighty] at h
  refine pass_injective (fun q hq => ?_) h
  obtain ⟨round, hround, hq⟩ := List.mem_flatten.mp hq
  exact quadIndices_nodup q (List.eq_of_mem_replicate hround ▸ hq)

end Sys2Proof.Machine
end
